-- ==== Sys2Proof/Word.lean ====
section
/-! DEFINITION. The two carriers of the model: the 32-bit bus word and the bit string. -/

namespace Sys2Proof

/-- One word of the host bus (00_scope.md, "register width (host bus word) 32 bits"). -/
abbrev Word := BitVec 32

/-- A bit string (00_scope.md R8): a finite sequence of bits, whose head is position 0, the first bit on air. -/
abbrev BitString := List Bool

end Sys2Proof
end

