-- ==== Sys2Proof/Syntax.lean ====
section
/-! DEFINITION. The commands of the block: one constructor per row of spec/opcode_table.json. -/

namespace Sys2Proof

/-- The 15 commands of 30_encoding.md R82. No command has an encoded operand (R83). -/
inductive Instr where
  /-- 44_control.md R180 -/
  | nop
  /-- 40_bitstring.md R101 -/
  | enc8
  /-- 40_bitstring.md R102 -/
  | enc7
  /-- 40_bitstring.md R103 -/
  | enc16
  /-- 40_bitstring.md R104 -/
  | dec
  /-- 40_bitstring.md R105 -/
  | rev
  /-- 40_bitstring.md R106 -/
  | movoi
  /-- 41_phy_codec.md R121 -/
  | jrenc
  /-- 41_phy_codec.md R122 -/
  | jrgen
  /-- 41_phy_codec.md R125 -/
  | jrdec
  /-- 41_phy_codec.md R127 -/
  | serhdr
  /-- 41_phy_codec.md R129 -/
  | deshdr
  /-- 42_frame.md R141 -/
  | serfrm
  /-- 42_frame.md R143 -/
  | desfrm
  /-- 43_locator.md R162 -/
  | locate
  deriving DecidableEq, Repr

end Sys2Proof
end

