-- ==== Sys2Proof/WellFormed.lean ====
section
/-! DEFINITION. Which commands and which command words are well-formed. -/

namespace Sys2Proof

/-- A command is well-formed when its operands fit its encoding. No command has an encoded operand
(30_encoding.md R83), so every one is. -/
def Instr.wellFormed : Instr → Bool
  | .nop | .enc8 | .enc7 | .enc16 | .dec | .rev | .movoi => true
  | .jrenc | .jrgen | .jrdec | .serhdr | .deshdr => true
  | .serfrm | .desfrm | .locate => true

/-- The opcodes that 30_encoding.md R84 lists as illegal. -/
def reservedOpcode (op : Nat) : Bool :=
  (0x07 ≤ op && op ≤ 0x0F) || (0x13 ≤ op && op ≤ 0x1F) || (0x22 ≤ op && op ≤ 0x2F) ||
  (0x32 ≤ op && op ≤ 0x3F) || (0x41 ≤ op && op ≤ 0xFF)

/-- A command word is legal when R84 does not make it illegal: bits 31:8 are 0 and bits 7:0 are in none of
R84's ranges. The decoder is not written from this list but from the opcode map R82. -/
def legalCommandWord (w : Word) : Bool :=
  w.toNat / 256 == 0 && !reservedOpcode (w.toNat % 256)

end Sys2Proof
end

