-- ==== Sys2Proof/Decode.lean ====
section
/-! DEFINITION. The decoder of command words, total and rejecting by name, and after it the encoder. -/

namespace Sys2Proof

/-- Why a word is no command (30_encoding.md R84). -/
inductive DecodeError where
  /-- bits 31:8, the ZERO field of R80, are not 0 -/
  | nonzeroHighBits
  /-- bits 7:0 are no opcode of R82 -/
  | unassignedOpcode
  deriving DecidableEq, Repr

/-- The ZERO field of a command word, bits 31:8 (30_encoding.md R80). -/
def zeroField (w : Word) : BitVec 24 := w.extractLsb' 8 24

/-- The OP field of a command word, bits 7:0 (30_encoding.md R80). -/
def opField (w : Word) : BitVec 8 := w.extractLsb' 0 8

/-- The opcode map (30_encoding.md R82). -/
def instrOfOpcode (op : BitVec 8) : Option Instr :=
  match op.toNat with
  | 0x00 => some .nop
  | 0x01 => some .enc8
  | 0x02 => some .enc7
  | 0x03 => some .enc16
  | 0x04 => some .dec
  | 0x05 => some .rev
  | 0x06 => some .movoi
  | 0x10 => some .jrenc
  | 0x11 => some .jrgen
  | 0x12 => some .jrdec
  | 0x20 => some .serhdr
  | 0x21 => some .deshdr
  | 0x30 => some .serfrm
  | 0x31 => some .desfrm
  | 0x40 => some .locate
  | _ => none

/-- The command a word stands for, or why it stands for none (30_encoding.md R81, R84). -/
def decode (w : Word) : Except DecodeError Instr :=
  if zeroField w ≠ 0 then .error .nonzeroHighBits
  else
    match instrOfOpcode (opField w) with
    | some i => .ok i
    | none => .error .unassignedOpcode

/-- `decode` as the host asks for it: the row's bits are the low `nbits` bits of `w`, every higher bit is 0, and a
command is exactly one 32-bit word (30_encoding.md R85), which the bus moves whole (20_memory.md R64, R65). -/
def decodeTableWord (nbits w : Nat) : Option Instr :=
  let bits := w % 2 ^ nbits
  if bits < 2 ^ 32 then (decode (BitVec.ofNat 32 bits)).toOption else none

/-- The opcode of a command (30_encoding.md R82). -/
def opcode : Instr → BitVec 8
  | .nop => 0x00
  | .enc8 => 0x01
  | .enc7 => 0x02
  | .enc16 => 0x03
  | .dec => 0x04
  | .rev => 0x05
  | .movoi => 0x06
  | .jrenc => 0x10
  | .jrgen => 0x11
  | .jrdec => 0x12
  | .serhdr => 0x20
  | .deshdr => 0x21
  | .serfrm => 0x30
  | .desfrm => 0x31
  | .locate => 0x40

/-- The one word of a command: 24 zero bits above its opcode (30_encoding.md R80, R85). -/
def encode (i : Instr) : Word := (opcode i).setWidth 32

end Sys2Proof
end

