-- ==== Sys2Proof/Config.lean ====
section
/-! DEFINITION. What an implementation fixes: MAX_PAYLOAD and the sizes computed from it, and the free RND6 draw. -/

namespace Sys2Proof.Config

/-- MAX_PAYLOAD's value in this spec (00_scope.md R6). The machine reads it from the constant field
`State.maxPayload`, so that a statement can speak of every legal value (log 4). -/
def maxPayload : Nat := 114

/-- The largest legal MAX_PAYLOAD (00_scope.md R6: 0 <= MAX_PAYLOAD <= 236). -/
def maxPayloadBound : Nat := 236

/-- MAXBITS, the capacity of IBUF and of OBUF in bits (00_scope.md R7). -/
def maxBits (payload : Nat) : Nat := 56 + 88 + 16 + 8 * payload

/-- NWORDS = ceil(MAXBITS / 32), the bus words of each buffer window (00_scope.md R7). -/
def nWords (payload : Nat) : Nat := (maxBits payload + 31) / 32

/-- The free values of the RND6 input, one for each draw (10_state.md R39: "any value 0 to 63, independent of
earlier draws"). It has no body: no proof can see a draw's value (log 3). -/
opaque rnd6 : Nat → BitVec 6

end Sys2Proof.Config
end

