-- ==== Sys2Proof/Machine/State.lean ====
section
/-! DEFINITION. The state of the block (10_state.md R20), the host accesses that drive it, and how a step can stop. -/

namespace Sys2Proof.Machine

/-- What the host can do to the block: a bus read, a bus write, or asserting the reset input. An access carries the
number of bytes it moves, so that the accesses R65 leaves undefined can be written down and refused. -/
inductive HostOp where
  /-- `MemRead(addr, bytes)` (00_scope.md R11, 20_memory.md R65) -/
  | read (addr bytes : Nat)
  /-- `MemWrite(addr, bytes, value)` (00_scope.md R11, 20_memory.md R65) -/
  | write (addr bytes : Nat) (value : Word)
  /-- the reset input is asserted (70_reset_and_hazards.md R220) -/
  | reset
  deriving DecidableEq, Repr

/-- A stop that is the host's: the block itself never stops (93_implementation_defined.md, "No behaviour of the block
is treated as `stuck`"). -/
inductive Fault where
  /-- Raised by the bus for an address past 0xFFF, which is not in the block's one address space
  (20_memory.md R60; log 5). Safe: the model stops where nothing of the block is addressed. -/
  | outsideAddressSpace (addr : Nat)
  deriving DecidableEq, Repr

/-- A step the model has no meaning for. -/
inductive Refusal where
  /-- Raised by an arm of exec whose command has no meaning yet; no arm raises it. Safe: the model stops. -/
  | notModelled (mnemonic : String)
  /-- Raised by the bus for an access of another width than 4 bytes or at an address that is no multiple of 4, which
  "is not defined for this block; a model refuses it" (20_memory.md R65; log 6). Safe: the model stops. -/
  | undefinedAccess (addr bytes : Nat)
  deriving DecidableEq, Repr

/-- The state: the pieces of 10_state.md R20 in the spec's order, and after them the three fields that are the
model's own. -/
structure State where
  /-- CFG.JR_EN, bit 0 of CFG (R21) -/
  jrEn : Bool
  /-- CFG.JR_EARLY, bit 1 of CFG (R21) -/
  jrEarly : Bool
  /-- STATUS.ERR (R22) -/
  err : BitVec 4
  /-- CMD, the last word the host wrote to it (R23) -/
  cmd : Word
  /-- A, the operand register (R24) -/
  a : Word
  /-- R, the result register (R25) -/
  r : Word
  /-- ILEN, the length of the input string in bits (R26) -/
  ilen : Nat
  /-- OLEN, the length of the output string in bits (R27) -/
  olen : Nat
  /-- IBUF, MAXBITS bits, position 0 first (R28) -/
  ibuf : BitString
  /-- OBUF, MAXBITS bits, position 0 first (R29) -/
  obuf : BitString
  /-- H_PRE, the preamble (R30) -/
  hPre : Word
  /-- H_SFD, the start-of-frame delimiter (R31) -/
  hSfd : BitVec 8
  /-- H_JRB, the jamming-resistance byte (R32) -/
  hJrb : BitVec 8
  /-- H_PHR, the PHR value; 128 to 255 can be held and are refused by the serializers (R33) -/
  hPhr : BitVec 8
  /-- H_RSV, the reserved PHR bit (R34) -/
  hRsv : Bool
  /-- PLEN, the payload byte count (R35) -/
  plen : BitVec 8
  /-- FCS (R36) -/
  fcs : BitVec 16
  /-- MAC, with MAC[j] (position j of the string) in bit 87-j: MAC0 is bits 87:56, MAC1 bits 55:24, MAC2 bits 23:0
  of it (R37) -/
  mac : BitVec 88
  /-- MAX_PAYLOAD, the constant that PARAM shows (R38, 00_scope.md R6); nothing writes it (log 4) -/
  maxPayload : Nat
  /-- the MODEL's: how many RND6 draws have been made (R39; log 3) -/
  draws : Nat
  /-- the MODEL's: the host accesses still to be made, oldest first (20_memory.md R69; log 1) -/
  pending : List HostOp
  /-- the MODEL's: the values host reads have returned, newest first (70_reset_and_hazards.md R229; log 2) -/
  reads : List Word
  deriving DecidableEq, Repr

/-- The state after reset (70_reset_and_hazards.md R221), with no host access made or pending and no draw made
(logs 1, 2 and 3). -/
def State.reset : State where
  jrEn := false
  jrEarly := false
  err := 0
  cmd := 0
  a := 0
  r := 0
  ilen := 0
  olen := 0
  ibuf := List.replicate (Config.maxBits Config.maxPayload) false
  obuf := List.replicate (Config.maxBits Config.maxPayload) false
  hPre := 0
  hSfd := 0xA7
  hJrb := 0
  hPhr := 0
  hRsv := false
  plen := 0
  fcs := 0
  mac := 0
  maxPayload := Config.maxPayload
  draws := 0
  pending := []
  reads := []

end Sys2Proof.Machine
end

