-- ==== Sys2Proof/Machine/Flags.lean ====
section
/-! DEFINITION. The only status a command leaves is STATUS.ERR (10_state.md R40): its codes. The parity bits and
verdicts of the JRB byte are data, not flags, and stand in Machine/PhyCodec.lean. -/

namespace Sys2Proof.Machine

/-- The errors STATUS.ERR has a code for (60_exceptions.md R200). -/
inductive ErrKind where
  /-- malformed or undersized binary input (R201) -/
  | formatError
  /-- a value exceeds its target field (R202) -/
  | rangeError
  /-- reserved: no command raises it (R203) -/
  | stateError
  /-- an illegal command word (R204) -/
  | illegalCommand
  deriving DecidableEq, Repr

/-- STATUS.ERR of a command that completed (R200). -/
def errNone : BitVec 4 := 0

/-- STATUS.ERR's code of an error (R200). -/
def errCode : ErrKind → BitVec 4
  | .formatError => 1
  | .rangeError => 2
  | .stateError => 3
  | .illegalCommand => 4

end Sys2Proof.Machine
end

