-- ==== Sys2Proof/Machine/Bits.lean ====
section
/-! DEFINITION. The bit-string notation of 00_scope.md R8 and R10: bits_w, val, rev, substrings, zeros and padding. -/

namespace Sys2Proof.Machine

/-- `bits_w(v)` (R10): the w binary digits of v, most significant first. -/
def bits : Nat → Nat → BitString
  | 0, _ => []
  | w + 1, v => v.testBit w :: bits w v

/-- `val(s)` (R10): the unsigned integer whose most significant bit is position 0. -/
def val : BitString → Nat
  | [] => 0
  | b :: s => b.toNat * 2 ^ s.length + val s

/-- `rev(s)` (R10): position k of the result is position |s|-1-k of s. -/
def rev (s : BitString) : BitString := s.reverse

/-- `zeros(n)` (R8). -/
def zeros (n : Nat) : BitString := List.replicate n false

/-- The substring `s[i +: n]` of R8: the n bits at positions i to i+n-1. -/
def slice (s : BitString) (i n : Nat) : BitString := (s.drop i).take n

/-- Position i of s, as an integer field of one bit; 0 where s has no such position. -/
def bitAt (s : BitString) (i : Nat) : Bool := s.getD i false

/-- s with zero bits after it up to n positions: the fill of `emit` (R12) and of a window's last word
(20_memory.md R62). -/
def padTo (n : Nat) (s : BitString) : BitString := s ++ zeros (n - s.length)

end Sys2Proof.Machine
end

