-- ==== Sys2Proof/Machine/Operands.lean ====
section
/-! DEFINITION. What commands read: A as an unsigned integer, inbits(), the header width, the buffer capacity and the
field registers as bit strings. -/

namespace Sys2Proof.Machine

/-- MAXBITS of this block (00_scope.md R7). -/
def capacity (s : State) : Nat := Config.maxBits s.maxPayload

/-- NWORDS of this block (00_scope.md R7). -/
def windowWords (s : State) : Nat := Config.nWords s.maxPayload

/-- A, read by every command as an unsigned 32-bit integer (30_encoding.md R83). -/
def operandA (s : State) : Nat := s.a.toNat

/-- `inbits()`, the input string of a command: the first ILEN positions of IBUF (00_scope.md R11). -/
def inbits (s : State) : BitString := s.ibuf.take s.ilen

/-- hdrw, the width of the PHY header (41_phy_codec.md R126). -/
def hdrw (s : State) : Nat := if s.jrEn then 56 else 48

/-- The MAC registers as the 88-bit string they hold, MAC[0] first (10_state.md R37). -/
def macString (s : State) : BitString := bits 88 s.mac.toNat

end Sys2Proof.Machine
end

