-- ==== Sys2Proof/Machine/Ops.lean ====
section
/-! DEFINITION. The named operations every command is made of: ending with an outcome, emitting a string, and the
writes of R, H_JRB, the field registers, the input buffer and the draw counter. -/

namespace Sys2Proof.Machine

/-- The outcome of a step of this machine. -/
abbrev Out := Host.Outcome State Fault Refusal

/-- STATUS.ERR <- c (10_state.md R22). -/
def setErr (c : BitVec 4) (s : State) : State := { s with err := c }

/-- The command completes: with its writes made, STATUS.ERR <- 0 (30_encoding.md R81, 60_exceptions.md R200). -/
def complete (s : State) : Out := .next (setErr errNone s)

/-- `raise E`: the command writes STATUS.ERR and nothing else. This is all there is of exception entry: no state is
saved, no mode changes, control goes nowhere (60_exceptions.md R200, R206); and there is no return from it: the next
command overwrites STATUS.ERR (R207). -/
def raiseError (e : ErrKind) (s : State) : Out := .next (setErr (errCode e) s)

/-- `emit(str)` (00_scope.md R12): str in OBUF with zeros after it up to MAXBITS, and its length in OLEN. -/
def emit (str : BitString) (s : State) : State :=
  { s with obuf := padTo (capacity s) str, olen := str.length }

/-- R <- v (10_state.md R25). -/
def setResult (v : Word) (s : State) : State := { s with r := v }

/-- H_JRB <- b (10_state.md R32). -/
def setJrb (b : BitVec 8) (s : State) : State := { s with hJrb := b }

/-- The five fields of the document's PhyFrameHeader (10_state.md section 1). -/
structure HeaderFields where
  pre : Word
  sfd : BitVec 8
  jrb : BitVec 8
  phr : BitVec 8
  rsv : Bool
  deriving DecidableEq, Repr

/-- (H_PRE, H_SFD, H_JRB, H_PHR, H_RSV) <- h (41_phy_codec.md R129). -/
def setHeader (h : HeaderFields) (s : State) : State :=
  { s with hPre := h.pre, hSfd := h.sfd, hJrb := h.jrb, hPhr := h.phr, hRsv := h.rsv }

/-- MAC, PLEN and FCS, the frame fields after the header (42_frame.md R143). -/
def setTrailer (mac : BitVec 88) (plen : BitVec 8) (fcs : BitVec 16) (s : State) : State :=
  { s with mac := mac, plen := plen, fcs := fcs }

/-- IBUF <- OBUF and ILEN <- OLEN (40_bitstring.md R106). -/
def copyOutToIn (s : State) : State := { s with ibuf := s.obuf, ilen := s.olen }

/-- The value the next draw of RND6 gives (10_state.md R39). -/
def drawValue (s : State) : BitVec 6 := Config.rnd6 s.draws

/-- The state once RND6 has been drawn: the next draw is another free value (10_state.md R39). -/
def afterDraw (s : State) : State := { s with draws := s.draws + 1 }

/-- CMD <- w, the store of a host write to CMD (10_state.md R23). -/
def setCmd (w : Word) (s : State) : State := { s with cmd := w }

/-- The reset input (70_reset_and_hazards.md R220, R221): every piece of state of R20 takes its reset value, for this
block's MAX_PAYLOAD. What is not state of the block stays: the parameter, the random source's position ("the reset
itself draws no RND6 value"), the host's accesses and what it has read (logs 3, 4 and 7). -/
def blockReset (s : State) : State :=
  { State.reset with
    ibuf := zeros (capacity s), obuf := zeros (capacity s), maxPayload := s.maxPayload,
    draws := s.draws, pending := s.pending, reads := s.reads }

end Sys2Proof.Machine
end

