-- ==== Sys2Proof/Machine/Bus.lean ====
section
/-! DEFINITION. The host bus (20_memory.md): the register map, the buffer windows, and what one word read returns and
one word write changes. -/

namespace Sys2Proof.Machine

/-- What a mapped word address names (20_memory.md R61). -/
inductive Reg where
  | cfg | status | cmd | a | r | ilen | olen
  | hPre | hSfd | hJrb | hPhr | hRsv | plen | fcs | mac0 | mac1 | mac2 | param
  /-- IBUF word k -/
  | ibuf (k : Nat)
  /-- OBUF word k -/
  | obuf (k : Nat)
  deriving DecidableEq, Repr

/-- The byte address of each register (20_memory.md R61). -/
def regAddr : Reg → Nat
  | .cfg => 0x000
  | .status => 0x004
  | .cmd => 0x008
  | .a => 0x00C
  | .r => 0x010
  | .ilen => 0x014
  | .olen => 0x018
  | .hPre => 0x01C
  | .hSfd => 0x020
  | .hJrb => 0x024
  | .hPhr => 0x028
  | .hRsv => 0x02C
  | .plen => 0x030
  | .fcs => 0x034
  | .mac0 => 0x038
  | .mac1 => 0x03C
  | .mac2 => 0x040
  | .param => 0x044
  | .ibuf k => 0x100 + 4 * k
  | .obuf k => 0x200 + 4 * k

/-- The register at an aligned word address, for buffers of n window words; none where the address is unmapped
(20_memory.md R61, R62, R66). -/
def regAt (n addr : Nat) : Option Reg :=
  match addr with
  | 0x000 => some .cfg
  | 0x004 => some .status
  | 0x008 => some .cmd
  | 0x00C => some .a
  | 0x010 => some .r
  | 0x014 => some .ilen
  | 0x018 => some .olen
  | 0x01C => some .hPre
  | 0x020 => some .hSfd
  | 0x024 => some .hJrb
  | 0x028 => some .hPhr
  | 0x02C => some .hRsv
  | 0x030 => some .plen
  | 0x034 => some .fcs
  | 0x038 => some .mac0
  | 0x03C => some .mac1
  | 0x040 => some .mac2
  | 0x044 => some .param
  | _ =>
    if 0x100 ≤ addr ∧ addr < 0x100 + 4 * n then some (.ibuf ((addr - 0x100) / 4))
    else if 0x200 ≤ addr ∧ addr < 0x200 + 4 * n then some (.obuf ((addr - 0x200) / 4))
    else none

/-- Word k of a buffer's window: position 32k+j in bit 31-j, and 0 past the buffer's end (20_memory.md R62). -/
def windowWord (buf : BitString) (k : Nat) : Word :=
  BitVec.ofNat 32 (val (padTo 32 (slice buf (32 * k) 32)))

/-- The buffer after a write of w to word k of its window: the positions 32k+j it has take bits 31-j of w, the other
bits of w are ignored (20_memory.md R62). -/
def setWindowWord (buf : BitString) (k : Nat) (w : Word) : BitString :=
  buf.take (32 * k) ++ (bits 32 w.toNat).take (buf.length - 32 * k) ++ buf.drop (32 * k + 32)

/-- PARAM (10_state.md R38): bits 7:0 MAX_PAYLOAD, bits 27:16 MAXBITS, other bits 0. -/
def paramWord (s : State) : Word :=
  (0#4 ++ BitVec.ofNat 12 (capacity s) ++ 0#8 ++ BitVec.ofNat 8 s.maxPayload : BitVec (4 + 12 + 8 + 8))

/-- The word a host read of a register returns; reserved bits read 0 (10_state.md R21 to R38, R43). -/
def readReg (s : State) : Reg → Word
  | .cfg => (0#30 ++ BitVec.ofBool s.jrEarly ++ BitVec.ofBool s.jrEn : BitVec (30 + 1 + 1))
  | .status => s.err.setWidth 32
  | .cmd => s.cmd
  | .a => s.a
  | .r => s.r
  | .ilen => BitVec.ofNat 32 s.ilen
  | .olen => BitVec.ofNat 32 s.olen
  | .hPre => s.hPre
  | .hSfd => s.hSfd.setWidth 32
  | .hJrb => s.hJrb.setWidth 32
  | .hPhr => s.hPhr.setWidth 32
  | .hRsv => (BitVec.ofBool s.hRsv).setWidth 32
  | .plen => s.plen.setWidth 32
  | .fcs => s.fcs.setWidth 32
  | .mac0 => s.mac.extractLsb' 56 32
  | .mac1 => s.mac.extractLsb' 24 32
  | .mac2 => (s.mac.extractLsb' 0 24 ++ 0#8 : BitVec (24 + 8))
  | .param => paramWord s
  | .ibuf k => windowWord s.ibuf k
  | .obuf k => windowWord s.obuf k

/-- The state a host write of w to a register leaves; a write to CMD only stores the word here, the command it starts
is `commandStep` (10_state.md R21 to R38, R43; 20_memory.md R62, R67). -/
def writeReg (w : Word) (s : State) : Reg → State
  | .cfg => { s with jrEn := w.getLsbD 0, jrEarly := w.getLsbD 1 }
  | .cmd => setCmd w s
  | .a => { s with a := w }
  | .ilen =>
    let n := (w.extractLsb' 0 12).toNat
    if n ≤ capacity s then { s with ilen := n } else s
  | .hPre => { s with hPre := w }
  | .hSfd => { s with hSfd := w.extractLsb' 0 8 }
  | .hJrb => { s with hJrb := w.extractLsb' 0 8 }
  | .hPhr => { s with hPhr := w.extractLsb' 0 8 }
  | .hRsv => { s with hRsv := w.getLsbD 0 }
  | .plen => { s with plen := w.extractLsb' 0 8 }
  | .fcs => { s with fcs := w.extractLsb' 0 16 }
  | .mac0 => { s with mac := (w ++ s.mac.extractLsb' 0 56 : BitVec (32 + 56)) }
  | .mac1 => { s with mac := (s.mac.extractLsb' 56 32 ++ w ++ s.mac.extractLsb' 0 24 : BitVec (32 + 32 + 24)) }
  | .mac2 => { s with mac := (s.mac.extractLsb' 24 64 ++ w.extractLsb' 8 24 : BitVec (64 + 24)) }
  | .ibuf k => { s with ibuf := setWindowWord s.ibuf k w }
  | .status => s
  | .r => s
  | .olen => s
  | .param => s
  | .obuf _ => s

/-- `MemRead(addr, 4)` at an aligned address of the bus space; an unmapped word reads 0 (20_memory.md R66). -/
def busRead (s : State) (addr : Nat) : Word :=
  match regAt (windowWords s) addr with
  | some g => readReg s g
  | none => 0

/-- `MemWrite(addr, 4, w)` at an aligned address of the bus space, without the command a write to CMD starts; a write
to an unmapped word is ignored (20_memory.md R66). -/
def busWrite (w : Word) (addr : Nat) (s : State) : State :=
  match regAt (windowWords s) addr with
  | some g => writeReg w s g
  | none => s

/-- The accesses the bus defines: a whole word at a multiple of 4 (20_memory.md R65). -/
def accessDefined (addr bytes : Nat) : Bool := bytes == 4 && addr % 4 == 0

/-- The addresses of the bus space, 0x000 to 0xFFF (20_memory.md R60). -/
def inAddressSpace (addr : Nat) : Bool := addr < 4096

/-- A host read returns v: the model records it (70_reset_and_hazards.md R229; log 2). -/
def logRead (v : Word) (s : State) : State := { s with reads := v :: s.reads }

end Sys2Proof.Machine
end

