-- ==== Sys2Proof/Machine/BitStringUtil.lean ====
section
/-! DEFINITION. The bit-string utilities: ENC8, ENC7, ENC16, DEC, REV, MOVOI (40_bitstring.md). -/

namespace Sys2Proof.Machine

/-- The fixed-width encoder behind ENC8, ENC7 and ENC16: RangeError when A does not fit w bits, else A's w binary
digits (40_bitstring.md R101 to R103). -/
def encodeA (w : Nat) (s : State) : Out :=
  if 2 ^ w ≤ operandA s then raiseError .rangeError s
  else complete (emit (bits w (operandA s)) s)

/-- ENC8 (40_bitstring.md R101). -/
def execEnc8 (s : State) : Out := encodeA 8 s

/-- ENC7 (40_bitstring.md R102). -/
def execEnc7 (s : State) : Out := encodeA 7 s

/-- ENC16 (40_bitstring.md R103). -/
def execEnc16 (s : State) : Out := encodeA 16 s

/-- DEC (40_bitstring.md R104). -/
def execDec (s : State) : Out :=
  if s.ilen = 0 then raiseError .formatError s
  else if s.ilen > 32 then raiseError .rangeError s
  else complete (setResult (BitVec.ofNat 32 (val (inbits s))) s)

/-- REV (40_bitstring.md R105). -/
def execRev (s : State) : Out := complete (emit (rev (inbits s)) s)

/-- MOVOI (40_bitstring.md R106). -/
def execMovoi (s : State) : Out := complete (copyOutToIn s)

end Sys2Proof.Machine
end

