-- ==== Sys2Proof/Machine/Control.lean ====
section
/-! DEFINITION. The control family: NOP, and the illegal command word (44_control.md). -/

namespace Sys2Proof.Machine

/-- NOP (44_control.md R180): nothing but STATUS.ERR <- 0. -/
def execNop (s : State) : Out := complete s

/-- An illegal command word (44_control.md R181); CMD already holds the word. -/
def illegalCommand (s : State) : Out := raiseError .illegalCommand s

end Sys2Proof.Machine
end

