-- ==== Sys2Proof/Machine/PhyCodec.lean ====
section
/-! DEFINITION. The PHY frame codec: the JRB byte (JRENC, JRGEN, JRDEC) and the PHY header (SERHDR, DESHDR)
(41_phy_codec.md). -/

namespace Sys2Proof.Machine

/-- The exclusive-or of the three bits of a half (41_phy_codec.md R120). -/
def parity3 (x : BitVec 3) : Bool := x.getLsbD 2 ^^ x.getLsbD 1 ^^ x.getLsbD 0

/-- `jr(v)` (41_phy_codec.md R120): 4*v + 2*ph + pl. -/
def jr (v : BitVec 6) : BitVec 8 :=
  let ph := parity3 (v.extractLsb' 3 3)
  let pl := parity3 (v.extractLsb' 0 3)
  BitVec.ofNat 8 (4 * v.toNat + 2 * ph.toNat + pl.toNat)

/-- `jrcheck(b) = (ph_ok, pl_ok)` (41_phy_codec.md R123). -/
def jrcheck (b : BitVec 8) : Bool × Bool :=
  (b.getLsbD 1 == parity3 (b.extractLsb' 5 3), b.getLsbD 0 == parity3 (b.extractLsb' 2 3))

/-- R and H_JRB receive the JRB byte of v: the effect JRENC and JRGEN share (R121, R122). -/
def storeToken (v : BitVec 6) (s : State) : State :=
  setJrb (jr v) (setResult ((jr v).setWidth 32) s)

/-- JRENC (41_phy_codec.md R121). -/
def execJrenc (s : State) : Out :=
  if operandA s > 63 then raiseError .rangeError s
  else complete (storeToken (BitVec.ofNat 6 (operandA s)) s)

/-- JRGEN (41_phy_codec.md R122): one draw of RND6. -/
def execJrgen (s : State) : Out := complete (afterDraw (storeToken (drawValue s) s))

/-- JRDEC's result (41_phy_codec.md R125): pl_ok * 512 + ph_ok * 256 + b[7:2]. -/
def jrdecResult (b : BitVec 8) : Word :=
  BitVec.ofNat 32 ((jrcheck b).2.toNat * 512 + (jrcheck b).1.toNat * 256 + (b.extractLsb' 2 6).toNat)

/-- JRDEC (41_phy_codec.md R125). -/
def execJrdec (s : State) : Out :=
  if operandA s > 255 then raiseError .rangeError s
  else complete (setResult (jrdecResult (BitVec.ofNat 8 (operandA s))) s)

/-- `hdr(sfd, jrb, phr)` under the two CFG bits (41_phy_codec.md R126). -/
def hdr (jrEn jrEarly : Bool) (sfd jrb phr : BitVec 8) : BitString :=
  let s := zeros 32 ++ bits 8 sfd.toNat
  match jrEn, jrEarly with
  | true, true => s ++ bits 8 jrb.toNat ++ [false] ++ bits 7 phr.toNat
  | true, false => s ++ [false] ++ bits 7 phr.toNat ++ bits 8 jrb.toNat
  | false, _ => s ++ bits 7 phr.toNat ++ [false]

/-- The header string of the field registers; H_PRE and H_RSV are not read (41_phy_codec.md R127). -/
def headerString (s : State) : BitString := hdr s.jrEn s.jrEarly s.hSfd s.hJrb s.hPhr

/-- SERHDR (41_phy_codec.md R127). -/
def execSerhdr (s : State) : Out :=
  if s.hPhr.toNat ≥ 128 then raiseError .rangeError s
  else complete (emit (headerString s) s)

/-- `hfields(str)` under the two CFG bits (41_phy_codec.md R128). -/
def hfields (jrEn jrEarly : Bool) (str : BitString) : HeaderFields :=
  let pre := BitVec.ofNat 32 (val (slice str 0 32))
  let sfd := BitVec.ofNat 8 (val (slice str 32 8))
  match jrEn, jrEarly with
  | true, true =>
    { pre := pre, sfd := sfd, jrb := BitVec.ofNat 8 (val (slice str 40 8)),
      rsv := bitAt str 48, phr := BitVec.ofNat 8 (val (slice str 49 7)) }
  | true, false =>
    { pre := pre, sfd := sfd, rsv := bitAt str 40, phr := BitVec.ofNat 8 (val (slice str 41 7)),
      jrb := BitVec.ofNat 8 (val (slice str 48 8)) }
  | false, _ =>
    { pre := pre, sfd := sfd, phr := BitVec.ofNat 8 (val (slice str 40 7)), rsv := bitAt str 47, jrb := 0 }

/-- The header fields of the input string (41_phy_codec.md R129). -/
def inputHeader (s : State) : HeaderFields := hfields s.jrEn s.jrEarly (inbits s)

/-- DESHDR (41_phy_codec.md R129). -/
def execDeshdr (s : State) : Out :=
  if s.ilen < hdrw s then raiseError .formatError s
  else complete (setHeader (inputHeader s) s)

end Sys2Proof.Machine
end

