-- ==== Sys2Proof/Machine/Frame.lean ====
section
/-! DEFINITION. The full frame: SERFRM and DESFRM (42_frame.md). -/

namespace Sys2Proof.Machine

/-- `frm()`, the frame string of the field registers (42_frame.md R140). -/
def frameString (s : State) : BitString :=
  headerString s ++ macString s ++ zeros (8 * s.plen.toNat) ++ bits 16 s.fcs.toNat

/-- SERFRM (42_frame.md R141). -/
def execSerfrm (s : State) : Out :=
  if s.hPhr.toNat ≥ 128 then raiseError .rangeError s
  else if s.plen.toNat > s.maxPayload then raiseError .rangeError s
  else complete (emit (frameString s) s)

/-- The payload count of an input of ILEN bits (42_frame.md R142); the division is exact where it is used. -/
def payloadCount (s : State) : Nat := (s.ilen - hdrw s - 104) / 8

/-- The writes of DESFRM (42_frame.md R143): every field is read from the input string of the state before. -/
def loadFrame (s : State) : State :=
  setTrailer (BitVec.ofNat 88 (val (slice (inbits s) (hdrw s) 88))) (BitVec.ofNat 8 (payloadCount s))
    (BitVec.ofNat 16 (val (slice (inbits s) (s.ilen - 16) 16))) (setHeader (inputHeader s) s)

/-- DESFRM (42_frame.md R143), with the checks of R142 in their order. -/
def execDesfrm (s : State) : Out :=
  if s.ilen % 8 ≠ 0 then raiseError .formatError s
  else if s.ilen < hdrw s + 104 then raiseError .formatError s
  else if payloadCount s > s.maxPayload then raiseError .rangeError s
  else complete (loadFrame s)

end Sys2Proof.Machine
end

