-- ==== Sys2Proof/Machine/Locator.lean ====
section
/-! DEFINITION. The field locator: LOCATE (43_locator.md). -/

namespace Sys2Proof.Machine

/-- The code of "Payload or FCS" (43_locator.md R160). -/
def payloadOrFcs : Nat := 19

/-- The ladder of 43_locator.md R161 over (code, width) rows: the first row that still holds the offset, each row
consuming the offsets below it. -/
def climb : List (Nat × Nat) → Nat → Nat
  | [], _ => payloadOrFcs
  | (code, width) :: rest, o => if o < width then code else climb rest (o - width)

/-- The MAC rows of the table of 43_locator.md R160, codes 4 to 18 with their widths. -/
def macRows : List (Nat × Nat) :=
  [(4, 1), (5, 1), (6, 1), (7, 1), (8, 1), (9, 3), (10, 2), (11, 2), (12, 2), (13, 2),
   (14, 8), (15, 16), (16, 16), (17, 16), (18, 16)]

/-- The PHR and JRB rows that CFG selects (43_locator.md R161). -/
def phrRows (jrEn jrEarly : Bool) : List (Nat × Nat) :=
  match jrEn, jrEarly with
  | true, true => [(2, 8), (3, 8)]
  | true, false => [(3, 8), (2, 8)]
  | false, _ => [(3, 8)]

/-- `locate(o)` (43_locator.md R161). -/
def locateField (jrEn jrEarly : Bool) (o : Nat) : Nat :=
  climb ([(0, 32), (1, 8)] ++ phrRows jrEn jrEarly ++ macRows) o

/-- LOCATE (43_locator.md R162): a lookup of A under CFG, which never fails. -/
def execLocate (s : State) : Out :=
  complete (setResult (BitVec.ofNat 32 (locateField s.jrEn s.jrEarly (operandA s))) s)

end Sys2Proof.Machine
end

