-- ==== Sys2Proof/Machine/Dispatch.lean ====
section
/-! DEFINITION. The meaning of every command: one direct call each. -/

namespace Sys2Proof.Machine

def exec (i : Instr) (s : State) : Host.Outcome State Fault Refusal :=
  match i with
  | .nop => Sys2Proof.Machine.execNop s
  | .enc8 => Sys2Proof.Machine.execEnc8 s
  | .enc7 => Sys2Proof.Machine.execEnc7 s
  | .enc16 => Sys2Proof.Machine.execEnc16 s
  | .dec => Sys2Proof.Machine.execDec s
  | .rev => Sys2Proof.Machine.execRev s
  | .movoi => Sys2Proof.Machine.execMovoi s
  | .jrenc => Sys2Proof.Machine.execJrenc s
  | .jrgen => Sys2Proof.Machine.execJrgen s
  | .jrdec => Sys2Proof.Machine.execJrdec s
  | .serhdr => Sys2Proof.Machine.execSerhdr s
  | .deshdr => Sys2Proof.Machine.execDeshdr s
  | .serfrm => Sys2Proof.Machine.execSerfrm s
  | .desfrm => Sys2Proof.Machine.execDesfrm s
  | .locate => Sys2Proof.Machine.execLocate s

end Sys2Proof.Machine
end

