-- ==== Sys2Proof/Machine/Command.lean ====
section
/-! DEFINITION. The command step (30_encoding.md R81) and one host access (20_memory.md R65 to R69): what
Machine/Step.lean calls. -/

namespace Sys2Proof.Machine

/-- The command step of a word written to CMD (30_encoding.md R81): IllegalCommand where the word is no command,
otherwise the command's meaning. CMD already holds the word; no command reads or writes it (10_state.md R23; log 10). -/
def commandStep (w : Word) (s : State) : Out :=
  match decode w with
  | .error _ => illegalCommand s
  | .ok i => exec i s

/-- A host read (20_memory.md R65 to R67): an address outside the bus space faults, an undefined access is refused,
and otherwise the word read is recorded and nothing else changes. -/
def hostRead (addr bytes : Nat) (s : State) : Out :=
  if !inAddressSpace addr then .fault (.outsideAddressSpace addr)
  else if !accessDefined addr bytes then .refused (.undefinedAccess addr bytes)
  else .next (logRead (busRead s addr) s)

/-- A host write (20_memory.md R65 to R67): the register addressed changes, and a write to CMD also runs a command. -/
def hostWrite (addr bytes : Nat) (w : Word) (s : State) : Out :=
  if !inAddressSpace addr then .fault (.outsideAddressSpace addr)
  else if !accessDefined addr bytes then .refused (.undefinedAccess addr bytes)
  else if addr = regAddr .cmd then commandStep w (busWrite w addr s)
  else .next (busWrite w addr s)

/-- The oldest access leaves the schedule, of which `rest` is left (20_memory.md R69; log 1). -/
def popAccess (rest : List HostOp) (s : State) : State := { s with pending := rest }

/-- One event at the host port. -/
def hostAccess (op : HostOp) (s : State) : Out :=
  match op with
  | .read addr bytes => hostRead addr bytes s
  | .write addr bytes w => hostWrite addr bytes w s
  | .reset => .next (blockReset s)

/-- The oldest pending access leaves the schedule and is made; with none pending the block idles: it acts only on a
host access (10_state.md R42, 60_exceptions.md R214; log 1). -/
def hostStep (s : State) : Out :=
  match s.pending with
  | [] => .next s
  | op :: rest => hostAccess op (popAccess rest s)

/-- The host access that starts the command of word w: `MemWrite(0x008, 4, w)` (30_encoding.md R86). -/
def commandWrite (w : Word) : HostOp := .write (regAddr .cmd) 4 w

end Sys2Proof.Machine
end

