-- ==== Sys2Proof/Machine/Step.lean ====
section
/-! DEFINITION. The step of the machine, and the placing of a command where the next step takes it. -/

namespace Sys2Proof.Machine

/-- One step: one host access, with the command it may start (20_memory.md R68, R69; 70_reset_and_hazards.md R228). -/
def step (s : State) : Host.Outcome State Fault Refusal := hostStep s

/-- The command whose bits are the low nbits bits of w becomes the host's next access, a write of that word to CMD,
ahead of the accesses already pending (30_encoding.md R81; log 9). -/
def State.withFetchWord (s : State) (nbits w : Nat) : State :=
  { s with pending := commandWrite (BitVec.ofNat 32 (w % 2 ^ nbits)) :: s.pending }

end Sys2Proof.Machine
end

