-- ==== Sys2Proof/Safety.lean ====
section
/-! DEFINITION. What counts as a well-formed state and a safe schedule, and the vocabulary of the statements: the
spec's tables and position lists, written from its words and not from the machine's definitions. -/

namespace Sys2Proof.Machine

/-- The form every reachable state has: MAX_PAYLOAD is legal (00_scope.md R6); both buffers hold MAXBITS positions
(10_state.md R28, R29); both lengths are at most MAXBITS (R26, R27); OBUF is 0 at and past OLEN (R29); STATUS.ERR
is 0, 1, 2 or 4 (93_implementation_defined.md row 5). -/
abbrev State.Wf (s : State) : Prop :=
  s.maxPayload ≤ Config.maxPayloadBound ∧
  s.ibuf.length = capacity s ∧ s.obuf.length = capacity s ∧
  s.ilen ≤ capacity s ∧ s.olen ≤ capacity s ∧
  s.obuf.drop s.olen = zeros (capacity s - s.olen) ∧
  (s.err = 0 ∨ s.err = 1 ∨ s.err = 2 ∨ s.err = 4)

/-- A host access the spec defines: an aligned word access in the bus space, or the reset input
(20_memory.md R60, R65; 70_reset_and_hazards.md R220). -/
def HostOp.defined : HostOp → Bool
  | .read addr bytes => inAddressSpace addr && accessDefined addr bytes
  | .write addr bytes _ => inAddressSpace addr && accessDefined addr bytes
  | .reset => true

/-- The host's schedule makes only accesses the spec defines. -/
abbrev State.ScheduleDefined (s : State) : Prop := ∀ op ∈ s.pending, op.defined = true

/-- t is s after a command that completed and emitted the string of n bits whose position k is `bit k`
(00_scope.md R12), and that changed nothing but OBUF, OLEN and STATUS.ERR. -/
def Emitted (n : Nat) (bit : Nat → Bool) (s t : State) : Prop :=
  t.olen = n ∧ t.err = 0 ∧ t.obuf.length = capacity s ∧
  (∀ k, k < n → t.obuf[k]? = some (bit k)) ∧
  (∀ k, n ≤ k → k < capacity s → t.obuf[k]? = some false) ∧
  t = { s with obuf := t.obuf, olen := t.olen, err := t.err }

/-- Position k of the PHY header, from the position table of 41_phy_codec.md R126. -/
def headerBit (s : State) (k : Nat) : Bool :=
  if k < 32 then false
  else if k < 40 then s.hSfd.getLsbD (39 - k)
  else if s.jrEn = false then
    if k < 47 then s.hPhr.getLsbD (46 - k) else false
  else if s.jrEarly then
    if k < 48 then s.hJrb.getLsbD (47 - k) else if k = 48 then false else s.hPhr.getLsbD (55 - k)
  else
    if k = 40 then false else if k < 48 then s.hPhr.getLsbD (47 - k) else s.hJrb.getLsbD (55 - k)

/-- The length of the frame string (42_frame.md R140). -/
def frameLength (s : State) : Nat := hdrw s + 104 + 8 * s.plen.toNat

/-- Position k of the frame string, from the position table of 42_frame.md R140. -/
def frameBit (s : State) (k : Nat) : Bool :=
  if k < hdrw s then headerBit s k
  else if k < hdrw s + 88 then s.mac.getLsbD (hdrw s + 87 - k)
  else if k < hdrw s + 88 + 8 * s.plen.toNat then false
  else s.fcs.getLsbD (frameLength s - 1 - k)

/-- The n positions of IBUF from position i are the n-bit field v, most significant bit first
(00_scope.md R10: the field is `val` of those positions). -/
def FieldAt (s : State) (i n : Nat) (v : BitVec n) : Prop :=
  ∀ k, k < n → s.ibuf[i + k]? = some (v.getLsbD (n - 1 - k))

/-- The header field registers of t are the fields of s's input string, under s's CFG (41_phy_codec.md R128). -/
def HeaderLoaded (s t : State) : Prop :=
  FieldAt s 0 32 t.hPre ∧ FieldAt s 32 8 t.hSfd ∧ t.hPhr.toNat < 128 ∧
  (s.jrEn = true → s.jrEarly = true →
    FieldAt s 40 8 t.hJrb ∧ s.ibuf[48]? = some t.hRsv ∧ FieldAt s 49 7 (t.hPhr.setWidth 7)) ∧
  (s.jrEn = true → s.jrEarly = false →
    s.ibuf[40]? = some t.hRsv ∧ FieldAt s 41 7 (t.hPhr.setWidth 7) ∧ FieldAt s 48 8 t.hJrb) ∧
  (s.jrEn = false →
    FieldAt s 40 7 (t.hPhr.setWidth 7) ∧ s.ibuf[47]? = some t.hRsv ∧ t.hJrb = 0)

/-- s with the registers that 30_encoding.md R82 lets command i write taken from t ("writes on success"), STATUS.ERR
among them, and for JRGEN the random source's position (10_state.md R39). -/
def writesOf (i : Instr) (s t : State) : State :=
  match i with
  | .nop => { s with err := t.err }
  | .enc8 | .enc7 | .enc16 | .rev | .serhdr | .serfrm => { s with obuf := t.obuf, olen := t.olen, err := t.err }
  | .dec | .jrdec | .locate => { s with r := t.r, err := t.err }
  | .movoi => { s with ibuf := t.ibuf, ilen := t.ilen, err := t.err }
  | .jrenc => { s with r := t.r, hJrb := t.hJrb, err := t.err }
  | .jrgen => { s with r := t.r, hJrb := t.hJrb, draws := t.draws, err := t.err }
  | .deshdr =>
    { s with hPre := t.hPre, hSfd := t.hSfd, hJrb := t.hJrb, hPhr := t.hPhr, hRsv := t.hRsv, err := t.err }
  | .desfrm =>
    { s with hPre := t.hPre, hSfd := t.hSfd, hJrb := t.hJrb, hPhr := t.hPhr, hRsv := t.hRsv, mac := t.mac,
             plen := t.plen, fcs := t.fcs, err := t.err }

/-- The cases of 60_exceptions.md R201, in which command i raises FormatError. -/
def FormatErrorCase (i : Instr) (s : State) : Prop :=
  (i = .dec ∧ s.ilen = 0) ∨ (i = .deshdr ∧ s.ilen < hdrw s) ∨
  (i = .desfrm ∧ s.ilen % 8 ≠ 0) ∨ (i = .desfrm ∧ s.ilen < hdrw s + 104)

/-- The cases of 60_exceptions.md R202. R205 puts DESFRM's two FormatError checks before its RangeError check. -/
def RangeErrorCase (i : Instr) (s : State) : Prop :=
  (i = .enc8 ∧ s.a.toNat > 255) ∨ (i = .enc7 ∧ s.a.toNat > 127) ∨ (i = .enc16 ∧ s.a.toNat > 65535) ∨
  (i = .dec ∧ s.ilen > 32) ∨ (i = .jrenc ∧ s.a.toNat > 63) ∨ (i = .jrdec ∧ s.a.toNat > 255) ∨
  (i = .serhdr ∧ s.hPhr.toNat ≥ 128) ∨ (i = .serfrm ∧ s.hPhr.toNat ≥ 128) ∨
  (i = .serfrm ∧ s.plen.toNat > s.maxPayload) ∨
  (i = .desfrm ∧ s.ilen > hdrw s + 104 + 8 * s.maxPayload)

/-- The table of 43_locator.md R163: the code and its first and last offset, for a CFG; 2^32 - 1 is the last offset A
can hold. -/
def absoluteRanges (jrEn jrEarly : Bool) : List (Nat × Nat × Nat) :=
  match jrEn, jrEarly with
  | false, _ =>
    [(0, 0, 31), (1, 32, 39), (3, 40, 47), (4, 48, 48), (5, 49, 49), (6, 50, 50), (7, 51, 51), (8, 52, 52),
     (9, 53, 55), (10, 56, 57), (11, 58, 59), (12, 60, 61), (13, 62, 63), (14, 64, 71), (15, 72, 87),
     (16, 88, 103), (17, 104, 119), (18, 120, 135), (19, 136, 0xFFFFFFFF)]
  | true, true =>
    [(0, 0, 31), (1, 32, 39), (2, 40, 47), (3, 48, 55), (4, 56, 56), (5, 57, 57), (6, 58, 58), (7, 59, 59),
     (8, 60, 60), (9, 61, 63), (10, 64, 65), (11, 66, 67), (12, 68, 69), (13, 70, 71), (14, 72, 79), (15, 80, 95),
     (16, 96, 111), (17, 112, 127), (18, 128, 143), (19, 144, 0xFFFFFFFF)]
  | true, false =>
    [(0, 0, 31), (1, 32, 39), (2, 48, 55), (3, 40, 47), (4, 56, 56), (5, 57, 57), (6, 58, 58), (7, 59, 59),
     (8, 60, 60), (9, 61, 63), (10, 64, 65), (11, 66, 67), (12, 68, 69), (13, 70, 71), (14, 72, 79), (15, 80, 95),
     (16, 96, 111), (17, 112, 127), (18, 128, 143), (19, 144, 0xFFFFFFFF)]

/-- The registers that exist in a block of n window words (20_memory.md R61): the windows have words 0 to n-1. -/
def Reg.mapped : Reg → Nat → Prop
  | .ibuf k, n => k < n
  | .obuf k, n => k < n
  | _, _ => True

/-- The read-only registers and the OBUF window (10_state.md R43). -/
def Reg.readOnly : Reg → Bool
  | .status | .r | .olen | .param | .obuf _ => true
  | _ => false

/-- The bits a host write can set, of each register but ILEN and the IBUF window, which have rules of their own
(10_state.md R21 to R38); the other bits are reserved. -/
def Reg.writable : Reg → Word
  | .cfg => 0x00000003
  | .cmd | .a | .hPre | .mac0 | .mac1 => 0xFFFFFFFF
  | .hSfd | .hJrb | .hPhr | .plen => 0x000000FF
  | .hRsv => 0x00000001
  | .fcs => 0x0000FFFF
  | .mac2 => 0xFFFFFF00
  | .status | .r | .ilen | .olen | .param | .ibuf _ | .obuf _ => 0

end Sys2Proof.Machine
end

