-- ==== Sys2Proof/Certificates/Slice0/Obligations.lean ====
section
/-! DEFINITION. The statements for the provers, from the numbered rules of spec/. `Emitted`, `FieldAt`, `HeaderLoaded`,
`writesOf` and the tables they speak of stand in Sys2Proof/Safety.lean. -/

open Sys2Proof Sys2Proof.Machine

/-! ## Encoding -/

/-- Decoding and encoding agree over all 2^32 words (30_encoding.md R80, R82, R85): a word decodes to a command
exactly when it is that command's encoding. -/
def Obligations.DecodeExactlyInvertsEncode : Prop :=
  ∀ (w : Word) (i : Instr), decode w = .ok i ↔ w = encode i

/-- 30_encoding.md R84: a word decodes to no command exactly when R84 lists it as illegal; the reason says which of
R84's two conditions holds. -/
def Obligations.IllegalWordsAreExactlyTheListed : Prop :=
  ∀ w : Word,
    (w.toNat / 256 ≠ 0 → decode w = .error .nonzeroHighBits) ∧
    (w.toNat / 256 = 0 → reservedOpcode (w.toNat % 256) = true → decode w = .error .unassignedOpcode) ∧
    (legalCommandWord w = true → ∃ i, decode w = .ok i)

/-- A few words of 30_encoding.md R82, one of each family. -/
def Obligations.SampleWordsDecode : Prop :=
  decode 0x00000000 = .ok .nop ∧ decode 0x00000003 = .ok .enc16 ∧ decode 0x00000012 = .ok .jrdec ∧
  decode 0x00000021 = .ok .deshdr ∧ decode 0x00000031 = .ok .desfrm ∧ decode 0x00000040 = .ok .locate ∧
  decodeTableWord 32 0x30 = some .serfrm ∧ decodeTableWord 32 0x100 = none

/-! ## The step -/

/-- 30_encoding.md R81: a host write to CMD of a word that decodes to i stores the word in CMD and executes i on that
state, in the same step; the access leaves the schedule (log 1). -/
def Obligations.StepRunsTheDecodedCommand : Prop :=
  ∀ (s : State) (w : Word) (i : Instr) (rest : List HostOp),
    decode w = .ok i → s.pending = .write 0x008 4 w :: rest →
      step s = exec i { s with cmd := w, pending := rest }

/-- 44_control.md R181: an illegal word gives CMD <- w, STATUS.ERR <- 4 and no other change, and the block goes on:
the next command executes normally. -/
def Obligations.IllegalWordRaisesIllegalCommand : Prop :=
  ∀ (s : State) (w : Word) (rest : List HostOp),
    (w.toNat / 256 ≠ 0 ∨ reservedOpcode (w.toNat % 256) = true) → s.pending = .write 0x008 4 w :: rest →
      step s = .next { s with cmd := w, err := 4, pending := rest } ∧
      ∀ (w' : Word) (i : Instr) (rest' : List HostOp),
        decode w' = .ok i → rest = .write 0x008 4 w' :: rest' →
          step { s with cmd := w, err := 4, pending := rest } =
            exec i { s with cmd := w', err := 4, pending := rest' }

/-- The model's choice (log 1): with no access pending a step leaves the state as it is, and a command placed by
withFetchWord (log 9) is the host's next access. -/
def Obligations.IdleStepAndPlacedCommand : Prop :=
  (∀ s : State, s.pending = [] → step s = .next s) ∧
  (∀ (s : State) (i : Instr), step (s.withFetchWord 32 (encode i).toNat) = exec i { s with cmd := encode i })

/-- 20_memory.md R67, "A host read never changes state: every read is idempotent": a read returns the word of
`busRead` and changes nothing of the block; the same read again returns the same word. Recording it in `reads` is
the model's (log 2). -/
def Obligations.HostReadChangesNothing : Prop :=
  ∀ (s : State) (addr : Nat) (rest : List HostOp), addr < 4096 → addr % 4 = 0 →
    s.pending = .read addr 4 :: rest →
      step s = .next { s with pending := rest, reads := busRead s addr :: s.reads } ∧
      busRead { s with pending := rest, reads := busRead s addr :: s.reads } addr = busRead s addr

/-- 20_memory.md R67: a host write to a word other than CMD is one step that changes only what it addresses: every
other aligned word of the bus space reads as before, and so do the random source, the schedule that is left and the
reads made. -/
def Obligations.HostWriteChangesOnlyItsWord : Prop :=
  ∀ (s : State) (addr : Nat) (w : Word) (rest : List HostOp), s.Wf → addr < 4096 → addr % 4 = 0 → addr ≠ 0x008 →
    s.pending = .write addr 4 w :: rest →
      ∃ t, step s = .next t ∧
        (∀ b, b < 4096 → b % 4 = 0 → b ≠ addr → busRead t b = busRead s b) ∧
        t.maxPayload = s.maxPayload ∧ t.draws = s.draws ∧ t.pending = rest ∧ t.reads = s.reads

/-- 20_memory.md R65: an access of another width, or at an address that is no multiple of 4, is refused. -/
def Obligations.UndefinedAccessIsRefused : Prop :=
  ∀ (s : State) (addr bytes : Nat) (w : Word) (rest : List HostOp), addr < 4096 → (bytes ≠ 4 ∨ addr % 4 ≠ 0) →
    (s.pending = .read addr bytes :: rest → step s = .refused (.undefinedAccess addr bytes)) ∧
    (s.pending = .write addr bytes w :: rest → step s = .refused (.undefinedAccess addr bytes))

/-- The model's choice (log 5): an access past 0xFFF, outside the one address space of 20_memory.md R60, faults. -/
def Obligations.OutsideAccessFaults : Prop :=
  ∀ (s : State) (addr bytes : Nat) (w : Word) (rest : List HostOp), 4096 ≤ addr →
    (s.pending = .read addr bytes :: rest → step s = .fault (.outsideAddressSpace addr)) ∧
    (s.pending = .write addr bytes w :: rest → step s = .fault (.outsideAddressSpace addr))

/-- 93_implementation_defined.md, "No behaviour of the block is treated as `stuck`: every command word and every
register access has a defined result or is refused": while the schedule makes only defined accesses, a step answers a
next state, whose schedule again makes only defined accesses. -/
def Obligations.DefinedAccessesNeverStop : Prop :=
  ∀ s : State, s.ScheduleDefined → ∃ t, step s = .next t ∧ t.ScheduleDefined

/-! ## Reset -/

/-- 70_reset_and_hazards.md R221: the reset state, with the words a host reads of it, and the frame SERFRM makes of
it: 152 bits, with OBUF words 0x00000000, 0xA7000000, 0, 0, 0. -/
def Obligations.ResetStateHasTheSpecValues : Prop :=
  (∀ addr, addr < 4096 → addr % 4 = 0 → busRead State.reset addr =
    if addr = 0x020 then 0xA7 else if addr = 0x044 then 0x04300072 else 0) ∧
  State.reset.ibuf = List.replicate 1072 false ∧ State.reset.obuf = List.replicate 1072 false ∧
  ∃ t, exec .serfrm State.reset = .next t ∧ t.err = 0 ∧ t.olen = 152 ∧ busRead t 0x200 = 0 ∧
    busRead t 0x204 = 0xA7000000 ∧ busRead t 0x208 = 0 ∧ busRead t 0x20C = 0 ∧ busRead t 0x210 = 0

/-- 70_reset_and_hazards.md R220: the reset input puts every piece of state into its reset value, from any state, with
no draw and no error. The parameter MAX_PAYLOAD and the model's own fields are no state of the block
(logs 3, 4, 7). -/
def Obligations.ResetInputRestoresEveryRegister : Prop :=
  ∀ (s : State) (rest : List HostOp), s.pending = .reset :: rest →
    step s = .next { State.reset with
      ibuf := List.replicate (160 + 8 * s.maxPayload) false, obuf := List.replicate (160 + 8 * s.maxPayload) false,
      maxPayload := s.maxPayload, draws := s.draws, pending := rest, reads := s.reads }

/-- The reset state has the form that every step keeps. -/
def Obligations.ResetStateIsWellFormed : Prop := State.reset.Wf

/-! ## Invariants of the whole machine -/

/-- Every step keeps the form of State.Wf: the buffers hold MAXBITS positions, ILEN and OLEN are at most MAXBITS, OBUF
is 0 at and past OLEN, STATUS.ERR is 0, 1, 2 or 4 (10_state.md R26 to R29; 60_exceptions.md R200, R203). -/
def Obligations.StepKeepsWellFormed : Prop :=
  ∀ s t : State, s.Wf → step s = .next t → t.Wf

/-- 10_state.md R38: PARAM is constant: no step changes MAX_PAYLOAD, nor the word a host reads at 0x044. -/
def Obligations.StepKeepsTheParameters : Prop :=
  ∀ s t : State, step s = .next t → t.maxPayload = s.maxPayload ∧ busRead t 0x044 = busRead s 0x044

/-- 60_exceptions.md R200 with R203: every command, from every state, ends in exactly one outcome: a next state with
STATUS.ERR 0, or with a code of 1 or 2 and no other change. -/
def Obligations.EveryCommandEndsInOneOutcome : Prop :=
  ∀ (i : Instr) (s : State), ∃ t, exec i s = .next t ∧
    (t.err = 0 ∨ ((t.err = 1 ∨ t.err = 2) ∧ t = { s with err := t.err }))

/-- 30_encoding.md R82, "writes on success": no command changes a register outside its row. In particular none writes
CFG, CMD, A or PARAM, and only JRGEN draws. -/
def Obligations.CommandsWriteOnlyTheirRegisters : Prop :=
  ∀ (i : Instr) (s t : State), exec i s = .next t → t = writesOf i s t

/-- 60_exceptions.md R201: FormatError is raised exactly in the listed cases; it records nothing but its code. -/
def Obligations.FormatErrorExactlyWhenListed : Prop :=
  ∀ (i : Instr) (s : State),
    (FormatErrorCase i s → exec i s = .next { s with err := 1 }) ∧
    (∀ t, exec i s = .next t → t.err = 1 → FormatErrorCase i s)

/-- 60_exceptions.md R202 with R205's order: RangeError is raised exactly in the listed cases, where no FormatError
check of the command came first; it records nothing but its code. -/
def Obligations.RangeErrorExactlyWhenListed : Prop :=
  ∀ (i : Instr) (s : State),
    (RangeErrorCase i s → ¬ FormatErrorCase i s → exec i s = .next { s with err := 2 }) ∧
    (∀ t, exec i s = .next t → t.err = 2 → RangeErrorCase i s ∧ ¬ FormatErrorCase i s)

/-- 10_state.md R39: RND6 is drawn exactly once by each JRGEN, and no other command reads it: its effect is the same
at every position of the random source. -/
def Obligations.OnlyJrgenDraws : Prop :=
  (∀ s t : State, exec .jrgen s = .next t → t.draws = s.draws + 1) ∧
  (∀ (i : Instr) (s t : State) (n : Nat), i ≠ .jrgen → exec i s = .next t →
    t.draws = s.draws ∧ exec i { s with draws := n } = .next { t with draws := n })

/-- 10_state.md R28: positions of IBUF at or past ILEN are held but read by no command: two states that differ only
there give the same effects and hold the same positions (MOVOI overwrites IBUF). -/
def Obligations.PositionsPastIlenAreNeverRead : Prop :=
  ∀ (i : Instr) (s t : State) (buf : BitString), buf.take s.ilen = s.ibuf.take s.ilen → exec i s = .next t →
    (i ≠ .movoi → exec i { s with ibuf := buf } = .next { t with ibuf := buf }) ∧
    (i = .movoi → exec i { s with ibuf := buf } = .next t)

/-- 10_state.md R21: JR_EARLY is ignored while JR_EN = 0. -/
def Obligations.EarlyFlagIgnoredWhenDisabled : Prop :=
  ∀ (i : Instr) (s t : State) (b : Bool), s.jrEn = false → exec i s = .next t →
    exec i { s with jrEarly := b } = .next { t with jrEarly := b }

/-- 10_state.md R30 and R34: no command reads H_PRE or H_RSV: other values in them change no effect, and stay where
the command does not write them. -/
def Obligations.PreambleAndReservedBitAreNeverRead : Prop :=
  ∀ (i : Instr) (s t : State) (p : Word) (b : Bool), exec i s = .next t →
    ∃ p' b', exec i { s with hPre := p, hRsv := b } = .next { t with hPre := p', hRsv := b' } ∧
      ((i = .deshdr ∨ i = .desfrm) ∧ t.err = 0 → p' = t.hPre ∧ b' = t.hRsv) ∧
      (¬ ((i = .deshdr ∨ i = .desfrm) ∧ t.err = 0) → p' = p ∧ b' = b)

/-! ## Control and bit-string utilities -/

/-- NOP (44_control.md R180): STATUS.ERR <- 0 and nothing else, and the word 0x00000000 is NOP. -/
def Obligations.NopOnlyClearsErr : Prop :=
  decode 0x00000000 = .ok .nop ∧ ∀ s : State, exec .nop s = .next { s with err := 0 }

/-- ENC8 (40_bitstring.md R101): the 8 digits of A, most significant first, or RangeError when A > 255. -/
def Obligations.Enc8EmitsEightDigits : Prop :=
  ∀ s : State,
    (s.a.toNat > 255 → exec .enc8 s = .next { s with err := 2 }) ∧
    (s.a.toNat ≤ 255 → ∃ t, exec .enc8 s = .next t ∧ Emitted 8 (fun k => s.a.getLsbD (7 - k)) s t)

/-- ENC7 (40_bitstring.md R102): the 7 digits of A, or RangeError when A >= 128: never a truncation. -/
def Obligations.Enc7EmitsSevenDigits : Prop :=
  ∀ s : State,
    (s.a.toNat ≥ 128 → exec .enc7 s = .next { s with err := 2 }) ∧
    (s.a.toNat < 128 → ∃ t, exec .enc7 s = .next t ∧ Emitted 7 (fun k => s.a.getLsbD (6 - k)) s t)

/-- ENC16 (40_bitstring.md R103): the 16 digits of A, or RangeError when A > 65535. -/
def Obligations.Enc16EmitsSixteenDigits : Prop :=
  ∀ s : State,
    (s.a.toNat > 65535 → exec .enc16 s = .next { s with err := 2 }) ∧
    (s.a.toNat ≤ 65535 → ∃ t, exec .enc16 s = .next t ∧ Emitted 16 (fun k => s.a.getLsbD (15 - k)) s t)

/-- DEC (40_bitstring.md R104): FormatError on the empty string, RangeError past 32 bits, and otherwise R is the
unsigned integer of the input: position k is bit ILEN-1-k of R, and R's higher bits are 0. -/
def Obligations.DecReadsTheInputValue : Prop :=
  ∀ s : State, s.Wf →
    (s.ilen = 0 → exec .dec s = .next { s with err := 1 }) ∧
    (s.ilen > 32 → exec .dec s = .next { s with err := 2 }) ∧
    (0 < s.ilen → s.ilen ≤ 32 → ∃ t, exec .dec s = .next t ∧ t = { s with r := t.r, err := 0 } ∧
      (∀ k, k < s.ilen → s.ibuf[k]? = some (t.r.getLsbD (s.ilen - 1 - k))) ∧
      (∀ j, s.ilen ≤ j → t.r.getLsbD j = false))

/-- REV (40_bitstring.md R105): position k of the output is position ILEN-1-k of the input; no error at any length. -/
def Obligations.RevEmitsTheReversedInput : Prop :=
  ∀ s : State, s.Wf → ∃ t, exec .rev s = .next t ∧ Emitted s.ilen (fun k => s.ibuf.getD (s.ilen - 1 - k) false) s t

/-- MOVOI (40_bitstring.md R106): IBUF <- OBUF, ILEN <- OLEN, and nothing else; with OLEN = 0, IBUF becomes all 0. -/
def Obligations.MovoiCopiesTheOutput : Prop :=
  ∀ s : State, exec .movoi s = .next { s with ibuf := s.obuf, ilen := s.olen, err := 0 } ∧
    (s.Wf → s.olen = 0 → s.obuf = List.replicate (160 + 8 * s.maxPayload) false)

/-- 40_bitstring.md R105: REV applied twice, with MOVOI between, gives back the input. -/
def Obligations.RevTwiceGivesBackTheInput : Prop :=
  ∀ s : State, s.Wf → ∃ t u v, exec .rev s = .next t ∧ exec .movoi t = .next u ∧ exec .rev u = .next v ∧
    v.err = 0 ∧ v.olen = s.ilen ∧ ∀ k, k < s.ilen → v.obuf[k]? = s.ibuf[k]?

/-- 40_bitstring.md R101, R102, R103, R104: DEC of what an encoder emitted, moved by MOVOI, gives A back in R. -/
def Obligations.DecReadsBackTheEncodedValue : Prop :=
  ∀ (i : Instr) (s t : State), (i = .enc8 ∨ i = .enc7 ∨ i = .enc16) → exec i s = .next t → t.err = 0 →
    ∃ u v, exec .movoi t = .next u ∧ exec .dec u = .next v ∧ v.err = 0 ∧ v.r = s.a

/-! ## The JRB byte -/

/-- 41_phy_codec.md R120: the JRB byte of v, its bits, its order on air, and the even weight of each group. -/
def Obligations.JrByteHasTheParityLayout : Prop :=
  ∀ v : BitVec 6,
    (jr v).extractLsb' 2 6 = v ∧
    (jr v).getLsbD 1 = (v.getLsbD 5 ^^ v.getLsbD 4 ^^ v.getLsbD 3) ∧
    (jr v).getLsbD 0 = (v.getLsbD 2 ^^ v.getLsbD 1 ^^ v.getLsbD 0) ∧
    ((jr v).getLsbD 7 ^^ (jr v).getLsbD 6 ^^ (jr v).getLsbD 5 ^^ (jr v).getLsbD 1) = false ∧
    ((jr v).getLsbD 4 ^^ (jr v).getLsbD 3 ^^ (jr v).getLsbD 2 ^^ (jr v).getLsbD 0) = false ∧
    bits 8 (jr v).toNat = [v.getLsbD 5, v.getLsbD 4, v.getLsbD 3, v.getLsbD 2, v.getLsbD 1, v.getLsbD 0,
      v.getLsbD 5 ^^ v.getLsbD 4 ^^ v.getLsbD 3, v.getLsbD 2 ^^ v.getLsbD 1 ^^ v.getLsbD 0]

/-- JRENC (41_phy_codec.md R121): RangeError when A > 63, otherwise R and H_JRB hold the JRB byte of A: A above the
exclusive-or of A's high half and that of its low half. -/
def Obligations.JrencStoresTheTokenOfA : Prop :=
  ∀ s : State,
    (s.a.toNat > 63 → exec .jrenc s = .next { s with err := 2 }) ∧
    (s.a.toNat ≤ 63 → ∃ t, exec .jrenc s = .next t ∧ t = { s with r := t.r, hJrb := t.hJrb, err := 0 } ∧
      t.r = t.hJrb.setWidth 32 ∧
      t.hJrb.toNat = 4 * s.a.toNat + 2 * (s.a.getLsbD 5 ^^ s.a.getLsbD 4 ^^ s.a.getLsbD 3).toNat +
        (s.a.getLsbD 2 ^^ s.a.getLsbD 1 ^^ s.a.getLsbD 0).toNat)

/-- JRGEN (41_phy_codec.md R122): for whatever value RND6 gives, R and H_JRB hold its JRB byte, with no error; the
effect is JRENC's with A replaced by the draw. -/
def Obligations.JrgenStoresTheTokenOfTheDraw : Prop :=
  ∀ s : State, ∃ (v : BitVec 6) (t : State), v = Config.rnd6 s.draws ∧ exec .jrgen s = .next t ∧
    t = { s with r := (jr v).setWidth 32, hJrb := jr v, draws := s.draws + 1, err := 0 } ∧
    exec .jrenc { s with a := v.setWidth 32 } = .next { t with a := v.setWidth 32, draws := s.draws }

/-- JRDEC (41_phy_codec.md R125): RangeError when A > 255, otherwise R[5:0] is A[7:2], R[8] and R[9] are the verdicts
of the high and the low group, every other bit of R is 0, and STATUS.ERR is 0 whatever the verdicts are. -/
def Obligations.JrdecReportsBothVerdicts : Prop :=
  ∀ s : State,
    (s.a.toNat > 255 → exec .jrdec s = .next { s with err := 2 }) ∧
    (s.a.toNat ≤ 255 → ∃ t, exec .jrdec s = .next t ∧ t = { s with r := t.r, err := 0 } ∧
      (∀ k, k < 6 → t.r.getLsbD k = s.a.getLsbD (k + 2)) ∧
      t.r.getLsbD 6 = false ∧ t.r.getLsbD 7 = false ∧
      t.r.getLsbD 8 = (s.a.getLsbD 1 == (s.a.getLsbD 7 ^^ s.a.getLsbD 6 ^^ s.a.getLsbD 5)) ∧
      t.r.getLsbD 9 = (s.a.getLsbD 0 == (s.a.getLsbD 4 ^^ s.a.getLsbD 3 ^^ s.a.getLsbD 2)) ∧
      (∀ k, 10 ≤ k → t.r.getLsbD k = false))

/-- 41_phy_codec.md R123: jrcheck's verdicts, and that every JRB byte passes both. -/
def Obligations.JrcheckAcceptsEveryToken : Prop :=
  (∀ b : BitVec 8,
    ((jrcheck b).1 = true ↔ b.getLsbD 1 = (b.getLsbD 7 ^^ b.getLsbD 6 ^^ b.getLsbD 5)) ∧
    ((jrcheck b).2 = true ↔ b.getLsbD 0 = (b.getLsbD 4 ^^ b.getLsbD 3 ^^ b.getLsbD 2))) ∧
  (∀ v : BitVec 6, jrcheck (jr v) = (true, true))

/-- 41_phy_codec.md R124: the byte of a token with the bits of m flipped: JRDEC's verdict on each group is 1 exactly
when m flips an even number of that group's bits, and no error is raised. -/
def Obligations.JrdecDetectsOddErrorsPerGroup : Prop :=
  ∀ (s : State) (v : BitVec 6) (m : BitVec 8), s.a = (jr v ^^^ m).setWidth 32 →
    ∃ t, exec .jrdec s = .next t ∧ t.err = 0 ∧
      t.r.getLsbD 8 = !(m.getLsbD 7 ^^ m.getLsbD 6 ^^ m.getLsbD 5 ^^ m.getLsbD 1) ∧
      t.r.getLsbD 9 = !(m.getLsbD 4 ^^ m.getLsbD 3 ^^ m.getLsbD 2 ^^ m.getLsbD 0)

/-- 41_phy_codec.md R121, R123, R125 (and 95_test_vectors.md 1.2, "JRDEC of each gives R = 0x300 + v"): JRDEC of the
token JRENC stored gives back the value with both verdicts 1. -/
def Obligations.JrdecReadsBackTheToken : Prop :=
  ∀ s t : State, exec .jrenc s = .next t → t.err = 0 →
    ∃ u, exec .jrdec { t with a := t.r } = .next u ∧ u.err = 0 ∧ u.r.toNat = 0x300 + s.a.toNat

/-! ## The PHY header -/

/-- SERHDR (41_phy_codec.md R127, with R126's position table): RangeError when H_PHR >= 128, otherwise the header
string of 48 or 56 bits. -/
def Obligations.SerhdrEmitsTheHeader : Prop :=
  ∀ s : State,
    (s.hPhr.toNat ≥ 128 → exec .serhdr s = .next { s with err := 2 }) ∧
    (s.hPhr.toNat < 128 → ∃ t, exec .serhdr s = .next t ∧
      Emitted (if s.jrEn then 56 else 48) (headerBit s) s t)

/-- DESHDR (41_phy_codec.md R129, with R128's slices): FormatError when ILEN is below the header width, otherwise the
header registers take the input's fields, unchecked, and nothing else changes. -/
def Obligations.DeshdrLoadsTheHeader : Prop :=
  ∀ s : State, s.Wf →
    (s.ilen < (if s.jrEn then 56 else 48) → exec .deshdr s = .next { s with err := 1 }) ∧
    ((if s.jrEn then 56 else 48) ≤ s.ilen → ∃ t, exec .deshdr s = .next t ∧ t.err = 0 ∧ HeaderLoaded s t ∧
      t = writesOf .deshdr s t)

/-- 41_phy_codec.md R130: SERHDR, MOVOI, DESHDR with CFG unchanged and H_PHR < 128 keep H_SFD and H_PHR, clear H_PRE
and H_RSV, and keep H_JRB when JR_EN = 1 or clear it when JR_EN = 0. -/
def Obligations.HeaderRoundTrip : Prop :=
  ∀ s : State, s.hPhr.toNat < 128 →
    ∃ t u v, exec .serhdr s = .next t ∧ exec .movoi t = .next u ∧ exec .deshdr u = .next v ∧
      v = { s with obuf := t.obuf, olen := t.olen, ibuf := t.obuf, ilen := t.olen, err := 0,
                   hPre := 0, hRsv := false, hJrb := if s.jrEn then s.hJrb else 0 }

/-! ## The frame -/

/-- SERFRM (42_frame.md R141, with R140's position table): RangeError when H_PHR >= 128 or PLEN > MAX_PAYLOAD,
otherwise the frame string of hdrw + 104 + 8 * PLEN bits. -/
def Obligations.SerfrmEmitsTheFrame : Prop :=
  ∀ s : State,
    (s.hPhr.toNat ≥ 128 ∨ s.plen.toNat > s.maxPayload → exec .serfrm s = .next { s with err := 2 }) ∧
    (s.hPhr.toNat < 128 → s.plen.toNat ≤ s.maxPayload → ∃ t, exec .serfrm s = .next t ∧
      Emitted ((if s.jrEn then 56 else 48) + 104 + 8 * s.plen.toNat) (frameBit s) s t ∧
      (s.jrEn = true → s.plen.toNat = s.maxPayload → t.olen = 160 + 8 * s.maxPayload))

/-- DESFRM (42_frame.md R143, with the checks of R142 in their order): the header fields, MAC, PLEN and FCS of the
input, and nothing else changes. -/
def Obligations.DesfrmLoadsTheFrame : Prop :=
  ∀ s : State, s.Wf →
    (s.ilen % 8 ≠ 0 → exec .desfrm s = .next { s with err := 1 }) ∧
    (s.ilen < hdrw s + 104 → exec .desfrm s = .next { s with err := 1 }) ∧
    (s.ilen % 8 = 0 → s.ilen > hdrw s + 104 + 8 * s.maxPayload → exec .desfrm s = .next { s with err := 2 }) ∧
    (s.ilen % 8 = 0 → hdrw s + 104 ≤ s.ilen → s.ilen ≤ hdrw s + 104 + 8 * s.maxPayload →
      ∃ t, exec .desfrm s = .next t ∧ t.err = 0 ∧ HeaderLoaded s t ∧ FieldAt s (hdrw s) 88 t.mac ∧
        hdrw s + 104 + 8 * t.plen.toNat = s.ilen ∧ FieldAt s (s.ilen - 16) 16 t.fcs ∧
        t = writesOf .desfrm s t)

/-- 42_frame.md R144: SERFRM, MOVOI, DESFRM with CFG unchanged, H_PHR < 128 and PLEN <= MAX_PAYLOAD completes and
keeps H_SFD, H_PHR, MAC, PLEN and FCS, H_JRB when JR_EN = 1 (0 when JR_EN = 0), with H_PRE = 0 and H_RSV = 0. -/
def Obligations.FrameRoundTrip : Prop :=
  ∀ s : State, s.hPhr.toNat < 128 → s.plen.toNat ≤ s.maxPayload →
    ∃ t u v, exec .serfrm s = .next t ∧ exec .movoi t = .next u ∧ exec .desfrm u = .next v ∧
      v = { s with obuf := t.obuf, olen := t.olen, ibuf := t.obuf, ilen := t.olen, err := 0,
                   hPre := 0, hRsv := false, hJrb := if s.jrEn then s.hJrb else 0 }

/-- 42_frame.md R145: DESFRM's payload count comes from ILEN alone, and SERFRM does not compute H_PHR from PLEN: the
positions of the MAC string, the payload and the FCS are the same whatever legal value H_PHR holds. -/
def Obligations.PhrIsIndependentOfThePayload : Prop :=
  (∀ s s' t t' : State, s.ilen = s'.ilen → s.jrEn = s'.jrEn → s.maxPayload = s'.maxPayload →
    exec .desfrm s = .next t → exec .desfrm s' = .next t' → t.err = t'.err ∧ (t.err = 0 → t.plen = t'.plen)) ∧
  (∀ (s : State) (p : BitVec 8), s.hPhr.toNat < 128 → p.toNat < 128 → s.plen.toNat ≤ s.maxPayload →
    ∃ t t', exec .serfrm s = .next t ∧ exec .serfrm { s with hPhr := p } = .next t' ∧ t'.hPhr = p ∧
      t'.olen = t.olen ∧ ∀ k, hdrw s ≤ k → t'.obuf[k]? = t.obuf[k]?)

/-! ## The locator -/

/-- LOCATE (43_locator.md R162, with the absolute ranges of R163): R is the code whose range holds A, for every A, and
nothing else changes but STATUS.ERR <- 0. -/
def Obligations.LocateReturnsTheRangeOfTheOffset : Prop :=
  ∀ s : State, ∃ t row, exec .locate s = .next t ∧ t = { s with r := t.r, err := 0 } ∧
    row ∈ absoluteRanges s.jrEn s.jrEarly ∧ row.2.1 ≤ s.a.toNat ∧ s.a.toNat ≤ row.2.2 ∧ t.r.toNat = row.1

/-- 43_locator.md R163, last paragraph: the MAC region of LOCATE starts where SERFRM places MAC[0], and its
"Payload or FCS" region where SERFRM's payload starts. -/
def Obligations.LocatorAgreesWithTheSerializer : Prop :=
  ∀ s t u : State, s.hPhr.toNat < 128 → s.plen.toNat ≤ s.maxPayload →
    exec .locate s = .next t → exec .serfrm s = .next u →
      ((4 ≤ t.r.toNat ∧ t.r.toNat ≤ 18) ↔ ∃ j, j < 88 ∧ s.a.toNat = hdrw s + j) ∧
      (t.r.toNat = 19 ↔ hdrw s + 88 ≤ s.a.toNat) ∧
      (∀ j, j < 88 → u.obuf[hdrw s + j]? = some (s.mac.getLsbD (87 - j))) ∧
      (∀ j, j < 8 * s.plen.toNat → u.obuf[hdrw s + 88 + j]? = some false)

/-- 43_locator.md R164: LOCATE reads no buffer and not MAC: two states with the same CFG and the same A give the same
code, whatever else they hold. -/
def Obligations.LocateDependsOnCfgAndOffsetOnly : Prop :=
  ∀ s s' t t' : State, s.jrEn = s'.jrEn → s.jrEarly = s'.jrEarly → s.a = s'.a →
    exec .locate s = .next t → exec .locate s' = .next t' → t.r = t'.r

/-! ## The host bus -/

/-- 20_memory.md R61: an aligned address names a register exactly when the map gives that register that address; every
other word address is unmapped. -/
def Obligations.RegisterMapIsTheSpecs : Prop :=
  ∀ (s : State) (addr : Nat) (g : Reg), s.Wf → addr % 4 = 0 →
    (regAt (windowWords s) addr = some g ↔ g.mapped (windowWords s) ∧ addr = regAddr g)

/-- 20_memory.md R66: a read of an unmapped word returns 0 and a write to it is ignored; neither changes any state of
the block or raises an error. Recording the read in `reads` is the model's (log 2). -/
def Obligations.UnmappedWordReadsZero : Prop :=
  ∀ (s : State) (addr : Nat) (w : Word) (rest : List HostOp), s.Wf → addr < 4096 → addr % 4 = 0 →
    (∀ g : Reg, g.mapped (windowWords s) → addr ≠ regAddr g) →
      (s.pending = .read addr 4 :: rest → step s = .next { s with pending := rest, reads := 0 :: s.reads }) ∧
      (s.pending = .write addr 4 w :: rest → step s = .next { s with pending := rest })

/-- 10_state.md R43 and 20_memory.md R67: a read-only register and the OBUF window ignore a write; of any other
register (but ILEN and the IBUF window, which have statements of their own) the writable bits take the word's, and the
reserved bits read 0. The last two clauses say so of the step that makes the write; at CMD the step also runs the
command, and CMD holds the word after it. -/
def Obligations.WritesReachOnlyWritableBits : Prop :=
  ∀ (s : State) (g : Reg) (w : Word) (rest : List HostOp), s.Wf → g.mapped (windowWords s) →
    (g.readOnly = true → busWrite w (regAddr g) s = s) ∧
    (g.readOnly = false → g ≠ .ilen → (∀ k, g ≠ .ibuf k) →
      busRead (busWrite w (regAddr g) s) (regAddr g) = w &&& g.writable ∧
      busRead s (regAddr g) &&& g.writable = busRead s (regAddr g)) ∧
    (g.readOnly = true → s.pending = .write (regAddr g) 4 w :: rest → step s = .next { s with pending := rest }) ∧
    (g.readOnly = false → g ≠ .ilen → (∀ k, g ≠ .ibuf k) → s.pending = .write (regAddr g) 4 w :: rest →
      ∃ t, step s = .next t ∧ busRead t (regAddr g) = w &&& g.writable)

/-- 10_state.md R26: a write to ILEN takes bits 11:0 of the word when they are at most MAXBITS, and is ignored
otherwise; bits 31:12 read 0. -/
def Obligations.IlenWriteIsBounded : Prop :=
  ∀ (s : State) (w : Word) (rest : List HostOp), s.Wf → s.pending = .write 0x014 4 w :: rest →
    (w.toNat % 4096 ≤ capacity s → step s = .next { s with ilen := w.toNat % 4096, pending := rest }) ∧
    (capacity s < w.toNat % 4096 → step s = .next { s with pending := rest }) ∧
    busRead s 0x014 = BitVec.ofNat 32 s.ilen ∧ (busRead s 0x014).toNat < 4096

/-- 20_memory.md R62: the buffer windows: position 32k+j is bit 31-j of word k, bits past MAXBITS read 0 and are
ignored on a write, a write to an IBUF word changes that word's positions only, and words at or past NWORDS are
unmapped. -/
def Obligations.BufferWindowsPackPositions : Prop :=
  ∀ (s : State) (k : Nat), s.Wf →
    (k < windowWords s → ∀ j, j < 32 →
      (busRead s (0x100 + 4 * k)).getLsbD (31 - j) = s.ibuf.getD (32 * k + j) false ∧
      (busRead s (0x200 + 4 * k)).getLsbD (31 - j) = s.obuf.getD (32 * k + j) false) ∧
    (k < windowWords s → ∀ (w : Word) (rest : List HostOp), s.pending = .write (0x100 + 4 * k) 4 w :: rest →
      ∃ t, step s = .next t ∧ t = { s with ibuf := t.ibuf, pending := rest } ∧
        (∀ j, j < 32 → 32 * k + j < capacity s → t.ibuf[32 * k + j]? = some (w.getLsbD (31 - j))) ∧
        (∀ p, (p < 32 * k ∨ 32 * k + 32 ≤ p) → t.ibuf[p]? = s.ibuf[p]?) ∧ t.ibuf.length = capacity s) ∧
    (windowWords s ≤ k → k < 64 → busRead s (0x100 + 4 * k) = 0 ∧ busRead s (0x200 + 4 * k) = 0)

/-- 20_memory.md R64: byte n of the output string is bits 31-8*(n mod 4) down to 24-8*(n mod 4) of OBUF word n/4, its
first-sent bit the most significant; the MAC registers pack the MAC string SERFRM emits the same way
(10_state.md R37). -/
def Obligations.BytesOfAStringAreBigEndian : Prop :=
  ∀ s : State, s.Wf →
    (∀ n j, j < 8 → 8 * n + 8 ≤ capacity s →
      s.obuf[8 * n + j]? = some ((busRead s (0x200 + 4 * (n / 4))).getLsbD (31 - 8 * (n % 4) - j))) ∧
    (∀ j, j < 88 → (macString s)[j]? = some ((busRead s (0x038 + 4 * (j / 32))).getLsbD (31 - j % 32)))

/-- 10_state.md R23: CMD reads as the last word written to it: after a step that wrote w to CMD, whatever the command
did, CMD reads w, and no later command changes that. -/
def Obligations.CmdHoldsTheLastWordWritten : Prop :=
  ∀ (s t : State) (w : Word) (rest : List HostOp), s.pending = .write 0x008 4 w :: rest → step s = .next t →
    busRead t 0x008 = w ∧ ∀ (i : Instr) (u : State), exec i t = .next u → busRead u 0x008 = w

/-- 70_reset_and_hazards.md R226: a command's writes are complete when its CMD write completes: whatever the command
and whatever register the next host access reads, that read returns the register of the state the command left. In
particular, after SERHDR the next accesses read the new OLEN and STATUS. -/
def Obligations.CommandResultIsReadAtOnce : Prop :=
  (∀ (s : State) (i : Instr) (w : Word) (addr : Nat) (rest : List HostOp),
    decode w = .ok i → addr < 4096 → addr % 4 = 0 → s.pending = .write 0x008 4 w :: .read addr 4 :: rest →
      ∃ t u, exec i { s with cmd := w, pending := .read addr 4 :: rest } = .next t ∧ step s = .next t ∧
        step t = .next u ∧ u = { t with reads := busRead t addr :: s.reads, pending := rest }) ∧
  (∀ (s : State) (rest : List HostOp), s.hPhr.toNat < 128 →
    s.pending = .write 0x008 4 0x20 :: .read 0x018 4 :: .read 0x004 4 :: rest →
      ∃ t u v, step s = .next t ∧ step t = .next u ∧ step u = .next v ∧
        v.reads = 0 :: (if s.jrEn then 56 else 48) :: s.reads ∧ v.pending = rest)

/-- 10_state.md R21 to R27 and R30 to R38, at the addresses of 20_memory.md R61: the word a host reads of each register
is the state field the commands use, zero-extended, with reserved bits 0. The buffer windows are
BufferWindowsPackPositions. -/
def Obligations.RegistersReadTheStateFields : Prop :=
  ∀ s : State, s.Wf →
    ((busRead s 0x000).toNat = s.jrEn.toNat + 2 * s.jrEarly.toNat ∧ busRead s 0x004 = s.err.setWidth 32 ∧
      busRead s 0x008 = s.cmd ∧ busRead s 0x00C = s.a ∧ busRead s 0x010 = s.r ∧
      (busRead s 0x014).toNat = s.ilen ∧ (busRead s 0x018).toNat = s.olen) ∧
    (busRead s 0x01C = s.hPre ∧ busRead s 0x020 = s.hSfd.setWidth 32 ∧ busRead s 0x024 = s.hJrb.setWidth 32 ∧
      busRead s 0x028 = s.hPhr.setWidth 32 ∧ (busRead s 0x02C).toNat = s.hRsv.toNat ∧
      busRead s 0x030 = s.plen.setWidth 32 ∧ busRead s 0x034 = s.fcs.setWidth 32) ∧
    (∀ j, j < 32 → (busRead s 0x038).getLsbD (31 - j) = s.mac.getLsbD (87 - j)) ∧
    (∀ j, j < 32 → (busRead s 0x03C).getLsbD (31 - j) = s.mac.getLsbD (55 - j)) ∧
    (∀ j, j < 24 → (busRead s 0x040).getLsbD (31 - j) = s.mac.getLsbD (23 - j)) ∧
    (∀ j, j < 8 → (busRead s 0x040).getLsbD j = false) ∧
    (busRead s 0x044).toNat = s.maxPayload + 2 ^ 16 * capacity s
end

