-- ==== Sys2Proof/Laws/Bits.lean ====
section
/-! SUPPORT. The laws of the bit-string notation: lengths, positions, and that `bits` and `val` are inverse. -/

namespace Sys2Proof.Machine

@[simp] theorem bits_length (w v : Nat) : (bits w v).length = w := by
  induction w with
  | zero => rfl
  | succ w ih => simp [bits, ih]

/-- Position k of `bits_w(v)` is bit w-1-k of v (00_scope.md R10). -/
theorem bits_getElem? {w v k : Nat} (h : k < w) : (bits w v)[k]? = some (v.testBit (w - 1 - k)) := by
  induction w generalizing k with
  | zero => omega
  | succ w ih =>
    cases k with
    | zero => simp [bits]
    | succ k =>
      have hk : k < w := by omega
      simp only [bits, List.getElem?_cons_succ, ih hk]
      congr 2
      omega

theorem bits_getElem?_ite (w v k : Nat) :
    (bits w v)[k]? = if k < w then some (v.testBit (w - 1 - k)) else none := by
  split
  · exact bits_getElem? ‹_›
  · simp; omega

@[simp] theorem zeros_length (n : Nat) : (zeros n).length = n := by simp [zeros]

theorem zeros_getElem? {n k : Nat} (h : k < n) : (zeros n)[k]? = some false := by simp [zeros, h]

theorem zeros_getElem?_ite (n k : Nat) : (zeros n)[k]? = if k < n then some false else none := by
  split
  · exact zeros_getElem? ‹_›
  · simp; omega

theorem val_lt (s : BitString) : val s < 2 ^ s.length := by
  induction s with
  | nil => simp [val]
  | cons b s ih =>
    cases b <;> simp only [val, Bool.toNat, cond, List.length_cons, Nat.pow_succ] <;> omega

/-- `val` reads back what `bits` wrote (00_scope.md R10). -/
theorem val_bits (w v : Nat) : val (bits w v) = v % 2 ^ w := by
  induction w with
  | zero => simp [bits, val, Nat.mod_one]
  | succ w ih =>
    simp only [bits, val, bits_length, ih]
    rw [Nat.mod_pow_succ, Nat.toNat_testBit, Nat.mul_comm]
    omega

/-- Bit j of `val(s)` is position |s|-1-j of s (00_scope.md R10). -/
theorem val_testBit (s : BitString) (j : Nat) :
    (val s).testBit j = (decide (j < s.length) && s.getD (s.length - 1 - j) false) := by
  induction s with
  | nil => simp [val]
  | cons b s ih =>
    have hs := val_lt s
    by_cases hj : j < s.length
    · have hk : s.length - j = (s.length - 1 - j) + 1 := by omega
      have : (val (b :: s)).testBit j = (val s).testBit j := by
        simp only [val]
        rw [Nat.mul_comm, Nat.testBit_two_pow_mul_add b.toNat hs, if_pos hj]
      rw [this, ih]
      simp [hj, hk, show j < s.length + 1 by omega]
    · have : (val (b :: s)).testBit j = b.toNat.testBit (j - s.length) := by
        simp only [val]
        rw [Nat.mul_comm, Nat.testBit_two_pow_mul_add b.toNat hs, if_neg hj]
      rw [this]
      by_cases hj' : j = s.length
      · subst hj'; cases b <;> simp
      · have h1 : ¬ j < s.length + 1 := by omega
        obtain ⟨d, hd⟩ : ∃ d, j - s.length = d + 1 := ⟨j - s.length - 1, by omega⟩
        cases b <;> simp [h1, hd, Nat.testBit_succ]

@[simp] theorem padTo_length (n : Nat) (s : BitString) : (padTo n s).length = max n s.length := by
  simp [padTo]; omega

theorem padTo_getElem?_lt {n k : Nat} {s : BitString} (h : k < s.length) : (padTo n s)[k]? = s[k]? := by
  simp [padTo, List.getElem?_append_left h]

theorem padTo_getElem?_ge {n k : Nat} {s : BitString} (h : s.length ≤ k) (hk : k < n) :
    (padTo n s)[k]? = some false := by
  rw [padTo, List.getElem?_append_right h, zeros_getElem? (by omega)]

theorem padTo_drop (n : Nat) (s : BitString) : (padTo n s).drop s.length = zeros (n - s.length) := by
  simp [padTo]

theorem slice_length (s : BitString) (i n : Nat) : (slice s i n).length = min n (s.length - i) := by
  simp [slice]

theorem slice_getElem? {s : BitString} {i n k : Nat} (h : k < n) : (slice s i n)[k]? = s[i + k]? := by
  simp [slice, h]

/-- Position k of a whole substring is bit n-1-k of its value. -/
theorem slice_eq_val_testBit {s : BitString} {i n k : Nat} (hn : i + n ≤ s.length) (hk : k < n) :
    s[i + k]? = some ((val (slice s i n)).testBit (n - 1 - k)) := by
  have hl : (slice s i n).length = n := by rw [slice_length]; omega
  have h1 : n - 1 - (n - 1 - k) = k := by omega
  rw [val_testBit, hl, h1, ← slice_getElem? (s := s) (i := i) hk]
  have : k < (slice s i n).length := by omega
  simp [List.getD_eq_getElem?_getD, List.getElem?_eq_getElem this, show n - 1 - k < n by omega]

theorem slice_append_left {s t : BitString} {i n : Nat} (h : i + n ≤ s.length) :
    slice (s ++ t) i n = slice s i n := by
  simp only [slice]
  rw [List.drop_append_of_le_length (by omega), List.take_append_of_le_length (by simp; omega)]

theorem slice_append_right {s t : BitString} {i n : Nat} (h : s.length ≤ i) :
    slice (s ++ t) i n = slice t (i - s.length) n := by
  simp only [slice]
  rw [List.drop_append, List.drop_eq_nil_of_le h, List.nil_append]

theorem slice_whole {s : BitString} {n : Nat} (h : s.length = n) : slice s 0 n = s := by
  simp [slice, ← h]

/-- The substring at the start of a string is its first part. -/
theorem slice_prefix {s t : BitString} {n : Nat} (h : s.length = n) : slice (s ++ t) 0 n = s := by
  rw [slice_append_left (by omega), slice_whole h]

theorem bitAt_append_right {s t : BitString} {i : Nat} (h : s.length ≤ i) :
    bitAt (s ++ t) i = bitAt t (i - s.length) := by
  simp [bitAt, List.getD_eq_getElem?_getD, List.getElem?_append_right h]

theorem bitAt_head (b : Bool) (t : BitString) : bitAt ([b] ++ t) 0 = b := rfl

end Sys2Proof.Machine
end

