-- ==== Sys2Proof/Laws/State.lean ====
section
/-! SUPPORT. One lemma per field per named update of State, true by rfl, so that no proof unfolds a record update. -/

namespace Sys2Proof.Machine

variable (s : State)

@[simp] theorem setErr_jrEn (c : BitVec 4) : (setErr c s).jrEn = s.jrEn := rfl
@[simp] theorem setErr_jrEarly (c : BitVec 4) : (setErr c s).jrEarly = s.jrEarly := rfl
@[simp] theorem setErr_err (c : BitVec 4) : (setErr c s).err = c := rfl
@[simp] theorem setErr_cmd (c : BitVec 4) : (setErr c s).cmd = s.cmd := rfl
@[simp] theorem setErr_a (c : BitVec 4) : (setErr c s).a = s.a := rfl
@[simp] theorem setErr_r (c : BitVec 4) : (setErr c s).r = s.r := rfl
@[simp] theorem setErr_ilen (c : BitVec 4) : (setErr c s).ilen = s.ilen := rfl
@[simp] theorem setErr_olen (c : BitVec 4) : (setErr c s).olen = s.olen := rfl
@[simp] theorem setErr_ibuf (c : BitVec 4) : (setErr c s).ibuf = s.ibuf := rfl
@[simp] theorem setErr_obuf (c : BitVec 4) : (setErr c s).obuf = s.obuf := rfl
@[simp] theorem setErr_hPre (c : BitVec 4) : (setErr c s).hPre = s.hPre := rfl
@[simp] theorem setErr_hSfd (c : BitVec 4) : (setErr c s).hSfd = s.hSfd := rfl
@[simp] theorem setErr_hJrb (c : BitVec 4) : (setErr c s).hJrb = s.hJrb := rfl
@[simp] theorem setErr_hPhr (c : BitVec 4) : (setErr c s).hPhr = s.hPhr := rfl
@[simp] theorem setErr_hRsv (c : BitVec 4) : (setErr c s).hRsv = s.hRsv := rfl
@[simp] theorem setErr_plen (c : BitVec 4) : (setErr c s).plen = s.plen := rfl
@[simp] theorem setErr_fcs (c : BitVec 4) : (setErr c s).fcs = s.fcs := rfl
@[simp] theorem setErr_mac (c : BitVec 4) : (setErr c s).mac = s.mac := rfl
@[simp] theorem setErr_maxPayload (c : BitVec 4) : (setErr c s).maxPayload = s.maxPayload := rfl
@[simp] theorem setErr_draws (c : BitVec 4) : (setErr c s).draws = s.draws := rfl
@[simp] theorem setErr_pending (c : BitVec 4) : (setErr c s).pending = s.pending := rfl
@[simp] theorem setErr_reads (c : BitVec 4) : (setErr c s).reads = s.reads := rfl
@[simp] theorem capacity_setErr (c : BitVec 4) : capacity (setErr c s) = capacity s := rfl
@[simp] theorem hdrw_setErr (c : BitVec 4) : hdrw (setErr c s) = hdrw s := rfl
@[simp] theorem inbits_setErr (c : BitVec 4) : inbits (setErr c s) = inbits s := rfl

@[simp] theorem emit_jrEn (str : BitString) : (emit str s).jrEn = s.jrEn := rfl
@[simp] theorem emit_jrEarly (str : BitString) : (emit str s).jrEarly = s.jrEarly := rfl
@[simp] theorem emit_err (str : BitString) : (emit str s).err = s.err := rfl
@[simp] theorem emit_cmd (str : BitString) : (emit str s).cmd = s.cmd := rfl
@[simp] theorem emit_a (str : BitString) : (emit str s).a = s.a := rfl
@[simp] theorem emit_r (str : BitString) : (emit str s).r = s.r := rfl
@[simp] theorem emit_ilen (str : BitString) : (emit str s).ilen = s.ilen := rfl
@[simp] theorem emit_olen (str : BitString) : (emit str s).olen = str.length := rfl
@[simp] theorem emit_ibuf (str : BitString) : (emit str s).ibuf = s.ibuf := rfl
@[simp] theorem emit_obuf (str : BitString) : (emit str s).obuf = padTo (capacity s) str := rfl
@[simp] theorem emit_hPre (str : BitString) : (emit str s).hPre = s.hPre := rfl
@[simp] theorem emit_hSfd (str : BitString) : (emit str s).hSfd = s.hSfd := rfl
@[simp] theorem emit_hJrb (str : BitString) : (emit str s).hJrb = s.hJrb := rfl
@[simp] theorem emit_hPhr (str : BitString) : (emit str s).hPhr = s.hPhr := rfl
@[simp] theorem emit_hRsv (str : BitString) : (emit str s).hRsv = s.hRsv := rfl
@[simp] theorem emit_plen (str : BitString) : (emit str s).plen = s.plen := rfl
@[simp] theorem emit_fcs (str : BitString) : (emit str s).fcs = s.fcs := rfl
@[simp] theorem emit_mac (str : BitString) : (emit str s).mac = s.mac := rfl
@[simp] theorem emit_maxPayload (str : BitString) : (emit str s).maxPayload = s.maxPayload := rfl
@[simp] theorem emit_draws (str : BitString) : (emit str s).draws = s.draws := rfl
@[simp] theorem emit_pending (str : BitString) : (emit str s).pending = s.pending := rfl
@[simp] theorem emit_reads (str : BitString) : (emit str s).reads = s.reads := rfl
@[simp] theorem capacity_emit (str : BitString) : capacity (emit str s) = capacity s := rfl
@[simp] theorem hdrw_emit (str : BitString) : hdrw (emit str s) = hdrw s := rfl
@[simp] theorem inbits_emit (str : BitString) : inbits (emit str s) = inbits s := rfl

@[simp] theorem setResult_jrEn (v : Word) : (setResult v s).jrEn = s.jrEn := rfl
@[simp] theorem setResult_jrEarly (v : Word) : (setResult v s).jrEarly = s.jrEarly := rfl
@[simp] theorem setResult_err (v : Word) : (setResult v s).err = s.err := rfl
@[simp] theorem setResult_cmd (v : Word) : (setResult v s).cmd = s.cmd := rfl
@[simp] theorem setResult_a (v : Word) : (setResult v s).a = s.a := rfl
@[simp] theorem setResult_r (v : Word) : (setResult v s).r = v := rfl
@[simp] theorem setResult_ilen (v : Word) : (setResult v s).ilen = s.ilen := rfl
@[simp] theorem setResult_olen (v : Word) : (setResult v s).olen = s.olen := rfl
@[simp] theorem setResult_ibuf (v : Word) : (setResult v s).ibuf = s.ibuf := rfl
@[simp] theorem setResult_obuf (v : Word) : (setResult v s).obuf = s.obuf := rfl
@[simp] theorem setResult_hPre (v : Word) : (setResult v s).hPre = s.hPre := rfl
@[simp] theorem setResult_hSfd (v : Word) : (setResult v s).hSfd = s.hSfd := rfl
@[simp] theorem setResult_hJrb (v : Word) : (setResult v s).hJrb = s.hJrb := rfl
@[simp] theorem setResult_hPhr (v : Word) : (setResult v s).hPhr = s.hPhr := rfl
@[simp] theorem setResult_hRsv (v : Word) : (setResult v s).hRsv = s.hRsv := rfl
@[simp] theorem setResult_plen (v : Word) : (setResult v s).plen = s.plen := rfl
@[simp] theorem setResult_fcs (v : Word) : (setResult v s).fcs = s.fcs := rfl
@[simp] theorem setResult_mac (v : Word) : (setResult v s).mac = s.mac := rfl
@[simp] theorem setResult_maxPayload (v : Word) : (setResult v s).maxPayload = s.maxPayload := rfl
@[simp] theorem setResult_draws (v : Word) : (setResult v s).draws = s.draws := rfl
@[simp] theorem setResult_pending (v : Word) : (setResult v s).pending = s.pending := rfl
@[simp] theorem setResult_reads (v : Word) : (setResult v s).reads = s.reads := rfl
@[simp] theorem capacity_setResult (v : Word) : capacity (setResult v s) = capacity s := rfl
@[simp] theorem hdrw_setResult (v : Word) : hdrw (setResult v s) = hdrw s := rfl
@[simp] theorem inbits_setResult (v : Word) : inbits (setResult v s) = inbits s := rfl

@[simp] theorem setJrb_jrEn (b : BitVec 8) : (setJrb b s).jrEn = s.jrEn := rfl
@[simp] theorem setJrb_jrEarly (b : BitVec 8) : (setJrb b s).jrEarly = s.jrEarly := rfl
@[simp] theorem setJrb_err (b : BitVec 8) : (setJrb b s).err = s.err := rfl
@[simp] theorem setJrb_cmd (b : BitVec 8) : (setJrb b s).cmd = s.cmd := rfl
@[simp] theorem setJrb_a (b : BitVec 8) : (setJrb b s).a = s.a := rfl
@[simp] theorem setJrb_r (b : BitVec 8) : (setJrb b s).r = s.r := rfl
@[simp] theorem setJrb_ilen (b : BitVec 8) : (setJrb b s).ilen = s.ilen := rfl
@[simp] theorem setJrb_olen (b : BitVec 8) : (setJrb b s).olen = s.olen := rfl
@[simp] theorem setJrb_ibuf (b : BitVec 8) : (setJrb b s).ibuf = s.ibuf := rfl
@[simp] theorem setJrb_obuf (b : BitVec 8) : (setJrb b s).obuf = s.obuf := rfl
@[simp] theorem setJrb_hPre (b : BitVec 8) : (setJrb b s).hPre = s.hPre := rfl
@[simp] theorem setJrb_hSfd (b : BitVec 8) : (setJrb b s).hSfd = s.hSfd := rfl
@[simp] theorem setJrb_hJrb (b : BitVec 8) : (setJrb b s).hJrb = b := rfl
@[simp] theorem setJrb_hPhr (b : BitVec 8) : (setJrb b s).hPhr = s.hPhr := rfl
@[simp] theorem setJrb_hRsv (b : BitVec 8) : (setJrb b s).hRsv = s.hRsv := rfl
@[simp] theorem setJrb_plen (b : BitVec 8) : (setJrb b s).plen = s.plen := rfl
@[simp] theorem setJrb_fcs (b : BitVec 8) : (setJrb b s).fcs = s.fcs := rfl
@[simp] theorem setJrb_mac (b : BitVec 8) : (setJrb b s).mac = s.mac := rfl
@[simp] theorem setJrb_maxPayload (b : BitVec 8) : (setJrb b s).maxPayload = s.maxPayload := rfl
@[simp] theorem setJrb_draws (b : BitVec 8) : (setJrb b s).draws = s.draws := rfl
@[simp] theorem setJrb_pending (b : BitVec 8) : (setJrb b s).pending = s.pending := rfl
@[simp] theorem setJrb_reads (b : BitVec 8) : (setJrb b s).reads = s.reads := rfl
@[simp] theorem capacity_setJrb (b : BitVec 8) : capacity (setJrb b s) = capacity s := rfl
@[simp] theorem hdrw_setJrb (b : BitVec 8) : hdrw (setJrb b s) = hdrw s := rfl
@[simp] theorem inbits_setJrb (b : BitVec 8) : inbits (setJrb b s) = inbits s := rfl

@[simp] theorem setHeader_jrEn (h : HeaderFields) : (setHeader h s).jrEn = s.jrEn := rfl
@[simp] theorem setHeader_jrEarly (h : HeaderFields) : (setHeader h s).jrEarly = s.jrEarly := rfl
@[simp] theorem setHeader_err (h : HeaderFields) : (setHeader h s).err = s.err := rfl
@[simp] theorem setHeader_cmd (h : HeaderFields) : (setHeader h s).cmd = s.cmd := rfl
@[simp] theorem setHeader_a (h : HeaderFields) : (setHeader h s).a = s.a := rfl
@[simp] theorem setHeader_r (h : HeaderFields) : (setHeader h s).r = s.r := rfl
@[simp] theorem setHeader_ilen (h : HeaderFields) : (setHeader h s).ilen = s.ilen := rfl
@[simp] theorem setHeader_olen (h : HeaderFields) : (setHeader h s).olen = s.olen := rfl
@[simp] theorem setHeader_ibuf (h : HeaderFields) : (setHeader h s).ibuf = s.ibuf := rfl
@[simp] theorem setHeader_obuf (h : HeaderFields) : (setHeader h s).obuf = s.obuf := rfl
@[simp] theorem setHeader_hPre (h : HeaderFields) : (setHeader h s).hPre = h.pre := rfl
@[simp] theorem setHeader_hSfd (h : HeaderFields) : (setHeader h s).hSfd = h.sfd := rfl
@[simp] theorem setHeader_hJrb (h : HeaderFields) : (setHeader h s).hJrb = h.jrb := rfl
@[simp] theorem setHeader_hPhr (h : HeaderFields) : (setHeader h s).hPhr = h.phr := rfl
@[simp] theorem setHeader_hRsv (h : HeaderFields) : (setHeader h s).hRsv = h.rsv := rfl
@[simp] theorem setHeader_plen (h : HeaderFields) : (setHeader h s).plen = s.plen := rfl
@[simp] theorem setHeader_fcs (h : HeaderFields) : (setHeader h s).fcs = s.fcs := rfl
@[simp] theorem setHeader_mac (h : HeaderFields) : (setHeader h s).mac = s.mac := rfl
@[simp] theorem setHeader_maxPayload (h : HeaderFields) : (setHeader h s).maxPayload = s.maxPayload := rfl
@[simp] theorem setHeader_draws (h : HeaderFields) : (setHeader h s).draws = s.draws := rfl
@[simp] theorem setHeader_pending (h : HeaderFields) : (setHeader h s).pending = s.pending := rfl
@[simp] theorem setHeader_reads (h : HeaderFields) : (setHeader h s).reads = s.reads := rfl
@[simp] theorem capacity_setHeader (h : HeaderFields) : capacity (setHeader h s) = capacity s := rfl
@[simp] theorem hdrw_setHeader (h : HeaderFields) : hdrw (setHeader h s) = hdrw s := rfl
@[simp] theorem inbits_setHeader (h : HeaderFields) : inbits (setHeader h s) = inbits s := rfl

@[simp] theorem setTrailer_jrEn (m : BitVec 88) (p : BitVec 8) (f : BitVec 16) : (setTrailer m p f s).jrEn = s.jrEn := rfl
@[simp] theorem setTrailer_jrEarly (m : BitVec 88) (p : BitVec 8) (f : BitVec 16) : (setTrailer m p f s).jrEarly = s.jrEarly := rfl
@[simp] theorem setTrailer_err (m : BitVec 88) (p : BitVec 8) (f : BitVec 16) : (setTrailer m p f s).err = s.err := rfl
@[simp] theorem setTrailer_cmd (m : BitVec 88) (p : BitVec 8) (f : BitVec 16) : (setTrailer m p f s).cmd = s.cmd := rfl
@[simp] theorem setTrailer_a (m : BitVec 88) (p : BitVec 8) (f : BitVec 16) : (setTrailer m p f s).a = s.a := rfl
@[simp] theorem setTrailer_r (m : BitVec 88) (p : BitVec 8) (f : BitVec 16) : (setTrailer m p f s).r = s.r := rfl
@[simp] theorem setTrailer_ilen (m : BitVec 88) (p : BitVec 8) (f : BitVec 16) : (setTrailer m p f s).ilen = s.ilen := rfl
@[simp] theorem setTrailer_olen (m : BitVec 88) (p : BitVec 8) (f : BitVec 16) : (setTrailer m p f s).olen = s.olen := rfl
@[simp] theorem setTrailer_ibuf (m : BitVec 88) (p : BitVec 8) (f : BitVec 16) : (setTrailer m p f s).ibuf = s.ibuf := rfl
@[simp] theorem setTrailer_obuf (m : BitVec 88) (p : BitVec 8) (f : BitVec 16) : (setTrailer m p f s).obuf = s.obuf := rfl
@[simp] theorem setTrailer_hPre (m : BitVec 88) (p : BitVec 8) (f : BitVec 16) : (setTrailer m p f s).hPre = s.hPre := rfl
@[simp] theorem setTrailer_hSfd (m : BitVec 88) (p : BitVec 8) (f : BitVec 16) : (setTrailer m p f s).hSfd = s.hSfd := rfl
@[simp] theorem setTrailer_hJrb (m : BitVec 88) (p : BitVec 8) (f : BitVec 16) : (setTrailer m p f s).hJrb = s.hJrb := rfl
@[simp] theorem setTrailer_hPhr (m : BitVec 88) (p : BitVec 8) (f : BitVec 16) : (setTrailer m p f s).hPhr = s.hPhr := rfl
@[simp] theorem setTrailer_hRsv (m : BitVec 88) (p : BitVec 8) (f : BitVec 16) : (setTrailer m p f s).hRsv = s.hRsv := rfl
@[simp] theorem setTrailer_plen (m : BitVec 88) (p : BitVec 8) (f : BitVec 16) : (setTrailer m p f s).plen = p := rfl
@[simp] theorem setTrailer_fcs (m : BitVec 88) (p : BitVec 8) (f : BitVec 16) : (setTrailer m p f s).fcs = f := rfl
@[simp] theorem setTrailer_mac (m : BitVec 88) (p : BitVec 8) (f : BitVec 16) : (setTrailer m p f s).mac = m := rfl
@[simp] theorem setTrailer_maxPayload (m : BitVec 88) (p : BitVec 8) (f : BitVec 16) : (setTrailer m p f s).maxPayload = s.maxPayload := rfl
@[simp] theorem setTrailer_draws (m : BitVec 88) (p : BitVec 8) (f : BitVec 16) : (setTrailer m p f s).draws = s.draws := rfl
@[simp] theorem setTrailer_pending (m : BitVec 88) (p : BitVec 8) (f : BitVec 16) : (setTrailer m p f s).pending = s.pending := rfl
@[simp] theorem setTrailer_reads (m : BitVec 88) (p : BitVec 8) (f : BitVec 16) : (setTrailer m p f s).reads = s.reads := rfl
@[simp] theorem capacity_setTrailer (m : BitVec 88) (p : BitVec 8) (f : BitVec 16) : capacity (setTrailer m p f s) = capacity s := rfl
@[simp] theorem hdrw_setTrailer (m : BitVec 88) (p : BitVec 8) (f : BitVec 16) : hdrw (setTrailer m p f s) = hdrw s := rfl
@[simp] theorem inbits_setTrailer (m : BitVec 88) (p : BitVec 8) (f : BitVec 16) : inbits (setTrailer m p f s) = inbits s := rfl

@[simp] theorem copyOutToIn_jrEn : (copyOutToIn s).jrEn = s.jrEn := rfl
@[simp] theorem copyOutToIn_jrEarly : (copyOutToIn s).jrEarly = s.jrEarly := rfl
@[simp] theorem copyOutToIn_err : (copyOutToIn s).err = s.err := rfl
@[simp] theorem copyOutToIn_cmd : (copyOutToIn s).cmd = s.cmd := rfl
@[simp] theorem copyOutToIn_a : (copyOutToIn s).a = s.a := rfl
@[simp] theorem copyOutToIn_r : (copyOutToIn s).r = s.r := rfl
@[simp] theorem copyOutToIn_ilen : (copyOutToIn s).ilen = s.olen := rfl
@[simp] theorem copyOutToIn_olen : (copyOutToIn s).olen = s.olen := rfl
@[simp] theorem copyOutToIn_ibuf : (copyOutToIn s).ibuf = s.obuf := rfl
@[simp] theorem copyOutToIn_obuf : (copyOutToIn s).obuf = s.obuf := rfl
@[simp] theorem copyOutToIn_hPre : (copyOutToIn s).hPre = s.hPre := rfl
@[simp] theorem copyOutToIn_hSfd : (copyOutToIn s).hSfd = s.hSfd := rfl
@[simp] theorem copyOutToIn_hJrb : (copyOutToIn s).hJrb = s.hJrb := rfl
@[simp] theorem copyOutToIn_hPhr : (copyOutToIn s).hPhr = s.hPhr := rfl
@[simp] theorem copyOutToIn_hRsv : (copyOutToIn s).hRsv = s.hRsv := rfl
@[simp] theorem copyOutToIn_plen : (copyOutToIn s).plen = s.plen := rfl
@[simp] theorem copyOutToIn_fcs : (copyOutToIn s).fcs = s.fcs := rfl
@[simp] theorem copyOutToIn_mac : (copyOutToIn s).mac = s.mac := rfl
@[simp] theorem copyOutToIn_maxPayload : (copyOutToIn s).maxPayload = s.maxPayload := rfl
@[simp] theorem copyOutToIn_draws : (copyOutToIn s).draws = s.draws := rfl
@[simp] theorem copyOutToIn_pending : (copyOutToIn s).pending = s.pending := rfl
@[simp] theorem copyOutToIn_reads : (copyOutToIn s).reads = s.reads := rfl
@[simp] theorem capacity_copyOutToIn : capacity (copyOutToIn s) = capacity s := rfl
@[simp] theorem hdrw_copyOutToIn : hdrw (copyOutToIn s) = hdrw s := rfl

@[simp] theorem afterDraw_jrEn : (afterDraw s).jrEn = s.jrEn := rfl
@[simp] theorem afterDraw_jrEarly : (afterDraw s).jrEarly = s.jrEarly := rfl
@[simp] theorem afterDraw_err : (afterDraw s).err = s.err := rfl
@[simp] theorem afterDraw_cmd : (afterDraw s).cmd = s.cmd := rfl
@[simp] theorem afterDraw_a : (afterDraw s).a = s.a := rfl
@[simp] theorem afterDraw_r : (afterDraw s).r = s.r := rfl
@[simp] theorem afterDraw_ilen : (afterDraw s).ilen = s.ilen := rfl
@[simp] theorem afterDraw_olen : (afterDraw s).olen = s.olen := rfl
@[simp] theorem afterDraw_ibuf : (afterDraw s).ibuf = s.ibuf := rfl
@[simp] theorem afterDraw_obuf : (afterDraw s).obuf = s.obuf := rfl
@[simp] theorem afterDraw_hPre : (afterDraw s).hPre = s.hPre := rfl
@[simp] theorem afterDraw_hSfd : (afterDraw s).hSfd = s.hSfd := rfl
@[simp] theorem afterDraw_hJrb : (afterDraw s).hJrb = s.hJrb := rfl
@[simp] theorem afterDraw_hPhr : (afterDraw s).hPhr = s.hPhr := rfl
@[simp] theorem afterDraw_hRsv : (afterDraw s).hRsv = s.hRsv := rfl
@[simp] theorem afterDraw_plen : (afterDraw s).plen = s.plen := rfl
@[simp] theorem afterDraw_fcs : (afterDraw s).fcs = s.fcs := rfl
@[simp] theorem afterDraw_mac : (afterDraw s).mac = s.mac := rfl
@[simp] theorem afterDraw_maxPayload : (afterDraw s).maxPayload = s.maxPayload := rfl
@[simp] theorem afterDraw_draws : (afterDraw s).draws = s.draws + 1 := rfl
@[simp] theorem afterDraw_pending : (afterDraw s).pending = s.pending := rfl
@[simp] theorem afterDraw_reads : (afterDraw s).reads = s.reads := rfl
@[simp] theorem capacity_afterDraw : capacity (afterDraw s) = capacity s := rfl
@[simp] theorem hdrw_afterDraw : hdrw (afterDraw s) = hdrw s := rfl
@[simp] theorem inbits_afterDraw : inbits (afterDraw s) = inbits s := rfl

@[simp] theorem setCmd_jrEn (w : Word) : (setCmd w s).jrEn = s.jrEn := rfl
@[simp] theorem setCmd_jrEarly (w : Word) : (setCmd w s).jrEarly = s.jrEarly := rfl
@[simp] theorem setCmd_err (w : Word) : (setCmd w s).err = s.err := rfl
@[simp] theorem setCmd_cmd (w : Word) : (setCmd w s).cmd = w := rfl
@[simp] theorem setCmd_a (w : Word) : (setCmd w s).a = s.a := rfl
@[simp] theorem setCmd_r (w : Word) : (setCmd w s).r = s.r := rfl
@[simp] theorem setCmd_ilen (w : Word) : (setCmd w s).ilen = s.ilen := rfl
@[simp] theorem setCmd_olen (w : Word) : (setCmd w s).olen = s.olen := rfl
@[simp] theorem setCmd_ibuf (w : Word) : (setCmd w s).ibuf = s.ibuf := rfl
@[simp] theorem setCmd_obuf (w : Word) : (setCmd w s).obuf = s.obuf := rfl
@[simp] theorem setCmd_hPre (w : Word) : (setCmd w s).hPre = s.hPre := rfl
@[simp] theorem setCmd_hSfd (w : Word) : (setCmd w s).hSfd = s.hSfd := rfl
@[simp] theorem setCmd_hJrb (w : Word) : (setCmd w s).hJrb = s.hJrb := rfl
@[simp] theorem setCmd_hPhr (w : Word) : (setCmd w s).hPhr = s.hPhr := rfl
@[simp] theorem setCmd_hRsv (w : Word) : (setCmd w s).hRsv = s.hRsv := rfl
@[simp] theorem setCmd_plen (w : Word) : (setCmd w s).plen = s.plen := rfl
@[simp] theorem setCmd_fcs (w : Word) : (setCmd w s).fcs = s.fcs := rfl
@[simp] theorem setCmd_mac (w : Word) : (setCmd w s).mac = s.mac := rfl
@[simp] theorem setCmd_maxPayload (w : Word) : (setCmd w s).maxPayload = s.maxPayload := rfl
@[simp] theorem setCmd_draws (w : Word) : (setCmd w s).draws = s.draws := rfl
@[simp] theorem setCmd_pending (w : Word) : (setCmd w s).pending = s.pending := rfl
@[simp] theorem setCmd_reads (w : Word) : (setCmd w s).reads = s.reads := rfl
@[simp] theorem capacity_setCmd (w : Word) : capacity (setCmd w s) = capacity s := rfl
@[simp] theorem hdrw_setCmd (w : Word) : hdrw (setCmd w s) = hdrw s := rfl
@[simp] theorem inbits_setCmd (w : Word) : inbits (setCmd w s) = inbits s := rfl

@[simp] theorem logRead_jrEn (v : Word) : (logRead v s).jrEn = s.jrEn := rfl
@[simp] theorem logRead_jrEarly (v : Word) : (logRead v s).jrEarly = s.jrEarly := rfl
@[simp] theorem logRead_err (v : Word) : (logRead v s).err = s.err := rfl
@[simp] theorem logRead_cmd (v : Word) : (logRead v s).cmd = s.cmd := rfl
@[simp] theorem logRead_a (v : Word) : (logRead v s).a = s.a := rfl
@[simp] theorem logRead_r (v : Word) : (logRead v s).r = s.r := rfl
@[simp] theorem logRead_ilen (v : Word) : (logRead v s).ilen = s.ilen := rfl
@[simp] theorem logRead_olen (v : Word) : (logRead v s).olen = s.olen := rfl
@[simp] theorem logRead_ibuf (v : Word) : (logRead v s).ibuf = s.ibuf := rfl
@[simp] theorem logRead_obuf (v : Word) : (logRead v s).obuf = s.obuf := rfl
@[simp] theorem logRead_hPre (v : Word) : (logRead v s).hPre = s.hPre := rfl
@[simp] theorem logRead_hSfd (v : Word) : (logRead v s).hSfd = s.hSfd := rfl
@[simp] theorem logRead_hJrb (v : Word) : (logRead v s).hJrb = s.hJrb := rfl
@[simp] theorem logRead_hPhr (v : Word) : (logRead v s).hPhr = s.hPhr := rfl
@[simp] theorem logRead_hRsv (v : Word) : (logRead v s).hRsv = s.hRsv := rfl
@[simp] theorem logRead_plen (v : Word) : (logRead v s).plen = s.plen := rfl
@[simp] theorem logRead_fcs (v : Word) : (logRead v s).fcs = s.fcs := rfl
@[simp] theorem logRead_mac (v : Word) : (logRead v s).mac = s.mac := rfl
@[simp] theorem logRead_maxPayload (v : Word) : (logRead v s).maxPayload = s.maxPayload := rfl
@[simp] theorem logRead_draws (v : Word) : (logRead v s).draws = s.draws := rfl
@[simp] theorem logRead_pending (v : Word) : (logRead v s).pending = s.pending := rfl
@[simp] theorem logRead_reads (v : Word) : (logRead v s).reads = v :: s.reads := rfl
@[simp] theorem capacity_logRead (v : Word) : capacity (logRead v s) = capacity s := rfl
@[simp] theorem hdrw_logRead (v : Word) : hdrw (logRead v s) = hdrw s := rfl
@[simp] theorem inbits_logRead (v : Word) : inbits (logRead v s) = inbits s := rfl

@[simp] theorem popAccess_jrEn (rest : List HostOp) : (popAccess rest s).jrEn = s.jrEn := rfl
@[simp] theorem popAccess_jrEarly (rest : List HostOp) : (popAccess rest s).jrEarly = s.jrEarly := rfl
@[simp] theorem popAccess_err (rest : List HostOp) : (popAccess rest s).err = s.err := rfl
@[simp] theorem popAccess_cmd (rest : List HostOp) : (popAccess rest s).cmd = s.cmd := rfl
@[simp] theorem popAccess_a (rest : List HostOp) : (popAccess rest s).a = s.a := rfl
@[simp] theorem popAccess_r (rest : List HostOp) : (popAccess rest s).r = s.r := rfl
@[simp] theorem popAccess_ilen (rest : List HostOp) : (popAccess rest s).ilen = s.ilen := rfl
@[simp] theorem popAccess_olen (rest : List HostOp) : (popAccess rest s).olen = s.olen := rfl
@[simp] theorem popAccess_ibuf (rest : List HostOp) : (popAccess rest s).ibuf = s.ibuf := rfl
@[simp] theorem popAccess_obuf (rest : List HostOp) : (popAccess rest s).obuf = s.obuf := rfl
@[simp] theorem popAccess_hPre (rest : List HostOp) : (popAccess rest s).hPre = s.hPre := rfl
@[simp] theorem popAccess_hSfd (rest : List HostOp) : (popAccess rest s).hSfd = s.hSfd := rfl
@[simp] theorem popAccess_hJrb (rest : List HostOp) : (popAccess rest s).hJrb = s.hJrb := rfl
@[simp] theorem popAccess_hPhr (rest : List HostOp) : (popAccess rest s).hPhr = s.hPhr := rfl
@[simp] theorem popAccess_hRsv (rest : List HostOp) : (popAccess rest s).hRsv = s.hRsv := rfl
@[simp] theorem popAccess_plen (rest : List HostOp) : (popAccess rest s).plen = s.plen := rfl
@[simp] theorem popAccess_fcs (rest : List HostOp) : (popAccess rest s).fcs = s.fcs := rfl
@[simp] theorem popAccess_mac (rest : List HostOp) : (popAccess rest s).mac = s.mac := rfl
@[simp] theorem popAccess_maxPayload (rest : List HostOp) : (popAccess rest s).maxPayload = s.maxPayload := rfl
@[simp] theorem popAccess_draws (rest : List HostOp) : (popAccess rest s).draws = s.draws := rfl
@[simp] theorem popAccess_pending (rest : List HostOp) : (popAccess rest s).pending = rest := rfl
@[simp] theorem popAccess_reads (rest : List HostOp) : (popAccess rest s).reads = s.reads := rfl
@[simp] theorem capacity_popAccess (rest : List HostOp) : capacity (popAccess rest s) = capacity s := rfl
@[simp] theorem hdrw_popAccess (rest : List HostOp) : hdrw (popAccess rest s) = hdrw s := rfl
@[simp] theorem inbits_popAccess (rest : List HostOp) : inbits (popAccess rest s) = inbits s := rfl

@[simp] theorem blockReset_jrEn : (blockReset s).jrEn = false := rfl
@[simp] theorem blockReset_jrEarly : (blockReset s).jrEarly = false := rfl
@[simp] theorem blockReset_err : (blockReset s).err = 0 := rfl
@[simp] theorem blockReset_cmd : (blockReset s).cmd = 0 := rfl
@[simp] theorem blockReset_a : (blockReset s).a = 0 := rfl
@[simp] theorem blockReset_r : (blockReset s).r = 0 := rfl
@[simp] theorem blockReset_ilen : (blockReset s).ilen = 0 := rfl
@[simp] theorem blockReset_olen : (blockReset s).olen = 0 := rfl
@[simp] theorem blockReset_ibuf : (blockReset s).ibuf = zeros (capacity s) := rfl
@[simp] theorem blockReset_obuf : (blockReset s).obuf = zeros (capacity s) := rfl
@[simp] theorem blockReset_hPre : (blockReset s).hPre = 0 := rfl
@[simp] theorem blockReset_hSfd : (blockReset s).hSfd = 0xA7 := rfl
@[simp] theorem blockReset_hJrb : (blockReset s).hJrb = 0 := rfl
@[simp] theorem blockReset_hPhr : (blockReset s).hPhr = 0 := rfl
@[simp] theorem blockReset_hRsv : (blockReset s).hRsv = false := rfl
@[simp] theorem blockReset_plen : (blockReset s).plen = 0 := rfl
@[simp] theorem blockReset_fcs : (blockReset s).fcs = 0 := rfl
@[simp] theorem blockReset_mac : (blockReset s).mac = 0 := rfl
@[simp] theorem blockReset_maxPayload : (blockReset s).maxPayload = s.maxPayload := rfl
@[simp] theorem blockReset_draws : (blockReset s).draws = s.draws := rfl
@[simp] theorem blockReset_pending : (blockReset s).pending = s.pending := rfl
@[simp] theorem blockReset_reads : (blockReset s).reads = s.reads := rfl
@[simp] theorem capacity_blockReset : capacity (blockReset s) = capacity s := rfl

end Sys2Proof.Machine
end

