-- ==== Sys2Proof/Laws/Ops.lean ====
section
/-! SUPPORT. For each shared operation, what it can do, said once. -/

namespace Sys2Proof.Machine

/-! ## Outcomes -/

theorem raiseError_eq (e : ErrKind) (s : State) : raiseError e s = .next (setErr (errCode e) s) := rfl

theorem complete_eq (s : State) : complete s = .next (setErr 0 s) := rfl

theorem illegalCommand_eq (s : State) : illegalCommand s = .next (setErr 4 s) := rfl

theorem capacity_eq (s : State) : capacity s = 160 + 8 * s.maxPayload := by
  simp [capacity, Config.maxBits]

theorem hdrw_eq (s : State) : hdrw s = if s.jrEn then 56 else 48 := rfl

theorem hdrw_cases (s : State) : hdrw s = 48 ∨ hdrw s = 56 := by
  rw [hdrw_eq]; cases s.jrEn <;> simp

/-! ## Emitting a string -/

/-- All `emit` does, for a string that fits the buffer: the string, zeros after it, its length, nothing else. -/
theorem emit_emitted {n : Nat} {bit : Nat → Bool} {str : BitString} {s : State} (hn : str.length = n)
    (hb : ∀ k, k < n → str[k]? = some (bit k)) (hc : n ≤ capacity s) :
    Emitted n bit s (setErr errNone (emit str s)) := by
  subst hn
  refine ⟨rfl, rfl, by simpa using hc, fun k hk => ?_, fun k hk hkc => ?_, rfl⟩
  · simpa [padTo_getElem?_lt hk] using hb k hk
  · simpa using padTo_getElem?_ge hk hkc

/-- OBUF is 0 past OLEN after `emit` (10_state.md R29). -/
theorem emit_zero_past_olen (str : BitString) (s : State) :
    (emit str s).obuf.drop (emit str s).olen = zeros (capacity (emit str s) - (emit str s).olen) := by
  simp [padTo_drop]

/-- The fixed-width encoder either refuses A or emits its digits. -/
theorem encodeA_of_fits {w : Nat} {s : State} (h : s.a.toNat < 2 ^ w) :
    encodeA w s = complete (emit (bits w s.a.toNat) s) := by
  simp [encodeA, operandA, Nat.not_le.mpr h]

theorem encodeA_of_too_big {w : Nat} {s : State} (h : 2 ^ w ≤ s.a.toNat) :
    encodeA w s = raiseError .rangeError s := by
  simp [encodeA, operandA, h]

theorem bits_getElem?_of_bitVec {n w k : Nat} (v : BitVec n) (h : k < w) :
    (bits w v.toNat)[k]? = some (v.getLsbD (w - 1 - k)) := by
  rw [bits_getElem? h, BitVec.testBit_toNat]

/-- What encodeA emits, digit by digit. -/
theorem encodeA_emitted {w : Nat} {s : State} (hw : w ≤ 160) (h : s.a.toNat < 2 ^ w) :
    ∃ t, encodeA w s = .next t ∧ Emitted w (fun k => s.a.getLsbD (w - 1 - k)) s t := by
  refine ⟨_, encodeA_of_fits h, emit_emitted (bits_length _ _) (fun k hk => bits_getElem?_of_bitVec _ hk) ?_⟩
  rw [capacity_eq]; omega

/-! ## Reading fields of the input string -/

/-- `inbits()` is ILEN long where IBUF has that many positions. -/
theorem inbits_length {s : State} (h : s.ilen ≤ s.ibuf.length) : (inbits s).length = s.ilen := by
  simp [inbits, h]

theorem inbits_getElem? {s : State} {k : Nat} (h : k < s.ilen) : (inbits s)[k]? = s.ibuf[k]? := by
  simp [inbits, h]

/-- The n-bit field read at position i of the input string is the field IBUF holds there. -/
theorem fieldAt_val_slice {s : State} {i n : Nat} (hi : i + n ≤ s.ilen) (hl : s.ilen ≤ s.ibuf.length) :
    FieldAt s i n (BitVec.ofNat n (val (slice (inbits s) i n))) := by
  intro k hk
  rw [← inbits_getElem? (by omega), slice_eq_val_testBit (n := n) (by rw [inbits_length hl]; omega) hk,
    BitVec.getLsbD_ofNat]
  simp [show n - 1 - k < n by omega]

theorem bitAt_eq {s : State} {i : Nat} (hi : i < s.ilen) (hl : s.ilen ≤ s.ibuf.length) :
    s.ibuf[i]? = some (bitAt (inbits s) i) := by
  have h : i < (inbits s).length := by rw [inbits_length hl]; exact hi
  rw [← inbits_getElem? hi, bitAt, List.getD_eq_getElem?_getD, List.getElem?_eq_getElem h]
  rfl

/-- A 7-bit field held in an 8-bit register. -/
theorem fieldAt_seven {s : State} {i : Nat} (hi : i + 7 ≤ s.ilen) (hl : s.ilen ≤ s.ibuf.length) :
    FieldAt s i 7 ((BitVec.ofNat 8 (val (slice (inbits s) i 7))).setWidth 7) ∧
      (BitVec.ofNat 8 (val (slice (inbits s) i 7))).toNat < 128 := by
  have hlt : val (slice (inbits s) i 7) < 128 := by
    have h1 := val_lt (slice (inbits s) i 7)
    have h2 : (slice (inbits s) i 7).length = 7 := by rw [slice_length, inbits_length hl]; omega
    rw [h2] at h1; exact h1
  constructor
  · have h := fieldAt_val_slice hi hl
    rwa [show BitVec.ofNat 7 (val (slice (inbits s) i 7)) =
      (BitVec.ofNat 8 (val (slice (inbits s) i 7))).setWidth 7 by
        apply BitVec.eq_of_toNat_eq; simp] at h
  · simp; omega

/-- Every state that takes the input's header fields has loaded the header (41_phy_codec.md R128). -/
theorem inputHeader_loaded {s t : State} (hi : hdrw s ≤ s.ilen) (hl : s.ilen ≤ s.ibuf.length)
    (hp : t.hPre = (inputHeader s).pre) (hf : t.hSfd = (inputHeader s).sfd) (hj : t.hJrb = (inputHeader s).jrb)
    (hr : t.hPhr = (inputHeader s).phr) (hv : t.hRsv = (inputHeader s).rsv) : HeaderLoaded s t := by
  rw [hdrw_eq] at hi
  unfold HeaderLoaded
  rw [hp, hf, hj, hr, hv]
  cases hE : s.jrEn <;> cases hY : s.jrEarly <;> simp [hE] at hi <;>
    simp only [inputHeader, hfields, hE, hY]
  · exact ⟨fieldAt_val_slice (by omega) hl, fieldAt_val_slice (by omega) hl, (fieldAt_seven (by omega) hl).2,
      by simp, by simp, fun _ => ⟨(fieldAt_seven (by omega) hl).1, bitAt_eq (by omega) hl, trivial⟩⟩
  · exact ⟨fieldAt_val_slice (by omega) hl, fieldAt_val_slice (by omega) hl, (fieldAt_seven (by omega) hl).2,
      by simp, by simp, fun _ => ⟨(fieldAt_seven (by omega) hl).1, bitAt_eq (by omega) hl, trivial⟩⟩
  · exact ⟨fieldAt_val_slice (by omega) hl, fieldAt_val_slice (by omega) hl, (fieldAt_seven (by omega) hl).2,
      by simp, fun _ _ => ⟨bitAt_eq (by omega) hl, (fieldAt_seven (by omega) hl).1,
        fieldAt_val_slice (by omega) hl⟩, by simp⟩
  · exact ⟨fieldAt_val_slice (by omega) hl, fieldAt_val_slice (by omega) hl, (fieldAt_seven (by omega) hl).2,
      fun _ _ => ⟨fieldAt_val_slice (by omega) hl, bitAt_eq (by omega) hl, (fieldAt_seven (by omega) hl).1⟩,
      by simp, by simp⟩

/-! ## Header and frame strings -/

@[simp] theorem hdr_length (en early : Bool) (sfd jrb phr : BitVec 8) :
    (hdr en early sfd jrb phr).length = if en then 56 else 48 := by
  cases en <;> cases early <;> simp [hdr]

@[simp] theorem headerString_length (s : State) : (headerString s).length = hdrw s := by
  simp [headerString, hdrw_eq]

@[simp] theorem macString_length (s : State) : (macString s).length = 88 := by simp [macString]

theorem macString_getElem? {s : State} {k : Nat} (h : k < 88) :
    (macString s)[k]? = some (s.mac.getLsbD (87 - k)) := by
  rw [macString, bits_getElem?_of_bitVec _ h]

/-- |frm()| (42_frame.md R140). -/
@[simp] theorem frameString_length (s : State) : (frameString s).length = frameLength s := by
  simp [frameString, frameLength]; omega

/-- Position k of the header string is R126's position table. -/
theorem headerString_getElem? {s : State} {k : Nat} (h : k < hdrw s) :
    (headerString s)[k]? = some (headerBit s k) := by
  rw [hdrw_eq] at h
  cases hE : s.jrEn <;> cases hY : s.jrEarly <;> simp [hE] at h <;>
    simp only [headerString, hdr, headerBit, hE, hY, List.getElem?_append, List.length_append, zeros_length,
      bits_length, List.length_cons, List.length_nil, zeros_getElem?_ite, bits_getElem?_ite,
      List.getElem?_singleton, Bool.false_eq_true, Bool.true_eq_false, if_true, if_false] <;>
    split_ifs <;> first | omega | rfl | (congr 2; omega)

/-- Position k of the frame string is R140's position table. -/
theorem frameString_getElem? {s : State} {k : Nat} (h : k < frameLength s) :
    (frameString s)[k]? = some (frameBit s k) := by
  rw [frameLength] at h
  by_cases h1 : k < hdrw s
  · rw [frameString, List.append_assoc, List.append_assoc, List.getElem?_append_left (by simpa using h1),
      headerString_getElem? h1, frameBit, if_pos h1]
  · simp only [frameString, frameBit, List.getElem?_append, List.length_append, headerString_length,
      zeros_length, zeros_getElem?_ite, bits_getElem?_ite, macString, bits_length, frameLength]
    split_ifs <;> first | omega | rfl | (congr 2; omega)

/-! ## Reading a header string back -/

theorem ofNat_val_bits (w : Nat) (v : BitVec w) : BitVec.ofNat w (val (bits w v.toNat)) = v := by
  rw [val_bits, Nat.mod_eq_of_lt v.isLt, BitVec.ofNat_toNat, BitVec.setWidth_eq]

theorem ofNat_val_bits_seven {p : BitVec 8} (h : p.toNat < 128) :
    BitVec.ofNat 8 (val (bits 7 p.toNat)) = p := by
  rw [val_bits, Nat.mod_eq_of_lt (by simpa using h), BitVec.ofNat_toNat, BitVec.setWidth_eq]

theorem val_zeros (n : Nat) : val (zeros n) = 0 := by
  induction n with
  | zero => rfl
  | succ n ih => simpa [zeros, List.replicate_succ, val] using ih

/-- `hfields` inverts `hdr` on legal PHR values, whatever follows the header (41_phy_codec.md R126, R128). -/
theorem hfields_hdr (en early : Bool) (sfd jrb phr : BitVec 8) (rest : BitString) (h : phr.toNat < 128) :
    hfields en early (hdr en early sfd jrb phr ++ rest) =
      { pre := 0, sfd := sfd, jrb := if en then jrb else 0, phr := phr, rsv := false } := by
  have hp := ofNat_val_bits_seven h
  have hs := ofNat_val_bits 8 sfd
  have hj := ofNat_val_bits 8 jrb
  have hz := val_zeros 32
  cases en <;> cases early <;> simp only [hdr, List.append_assoc, hfields]
  all_goals
    simp (disch := simp) only [slice_prefix, slice_append_right, bitAt_append_right, zeros_length, bits_length,
      List.length_cons, List.length_nil, Nat.reduceSub, Nat.reduceAdd, Nat.sub_self, bitAt_head, hz, hs, hj, hp]
  all_goals simp

/-! ## The locator -/

theorem climb_cons (c w : Nat) (rows : List (Nat × Nat)) (o : Nat) :
    climb ((c, w) :: rows) o = if o < w then c else climb rows (o - w) := rfl

/-- The absolute ranges (code, first, last) that a ladder of rows starting at offset `start` gives, the rest up to
the last offset A can hold going to code 19. -/
def spans : Nat → List (Nat × Nat) → List (Nat × Nat × Nat)
  | start, [] => [(payloadOrFcs, start, 0xFFFFFFFF)]
  | start, (c, w) :: rows => (c, start, start + w - 1) :: spans (start + w) rows

/-- All a ladder does: the code it returns is the code of a range that holds the offset. -/
theorem climb_in_span {rows : List (Nat × Nat)} {start o : Nat} (ho : start + o < 2 ^ 32) :
    ∃ row ∈ spans start rows, row.2.1 ≤ start + o ∧ start + o ≤ row.2.2 ∧ climb rows o = row.1 := by
  induction rows generalizing start o with
  | nil => exact ⟨_, List.mem_singleton.mpr rfl, by simp, by simp; omega, rfl⟩
  | cons r rows ih =>
    obtain ⟨c, w⟩ := r
    by_cases h : o < w
    · exact ⟨_, List.mem_cons_self, by simp, by simp; omega, by rw [climb_cons, if_pos h]⟩
    · obtain ⟨row, hm, hlo, hhi, hc⟩ := ih (start := start + w) (o := o - w) (by omega)
      exact ⟨row, List.mem_cons_of_mem _ hm, by omega, by omega, by rw [climb_cons, if_neg h, hc]⟩

end Sys2Proof.Machine
end

