-- ==== Sys2Proof/Laws/Bus.lean ====
section
/-! SUPPORT. What the bus operations do: the register map, the buffer windows, and which fields a write can touch. -/

namespace Sys2Proof.Machine

/-! ## The register map -/

/-- A register the map gives an aligned address has that address, and exists. -/
theorem regAt_sound {n addr : Nat} {g : Reg} (ha : addr % 4 = 0) (h : regAt n addr = some g) :
    g.mapped n ∧ addr = regAddr g := by
  unfold regAt at h
  split at h <;> try (cases h; exact ⟨trivial, rfl⟩)
  split_ifs at h with h1 h2 <;> cases h <;> constructor <;> simp only [Reg.mapped, regAddr] <;> omega

/-- Every register that exists in a block with windows of at most 64 words is found at its address. -/
theorem regAt_regAddr {n : Nat} {g : Reg} (hn : n ≤ 64) (hg : g.mapped n) : regAt n (regAddr g) = some g := by
  cases g <;> try rfl
  case ibuf k =>
    simp only [Reg.mapped] at hg
    simp only [regAddr]
    unfold regAt
    split <;> try omega
    rw [if_pos (by omega)]
    congr 2; omega
  case obuf k =>
    simp only [Reg.mapped] at hg
    simp only [regAddr]
    unfold regAt
    split <;> try omega
    rw [if_neg (by omega), if_pos (by omega)]
    congr 2; omega

theorem windowWords_le {s : State} (h : s.Wf) : windowWords s ≤ 64 := by
  have := h.1
  simp only [windowWords, Config.nWords, Config.maxBits, Config.maxPayloadBound] at *
  omega

/-- Reading a register that exists, at its address. -/
theorem busRead_regAddr {s : State} {g : Reg} (hw : s.Wf) (hg : g.mapped (windowWords s)) :
    busRead s (regAddr g) = readReg s g := by
  rw [busRead, regAt_regAddr (windowWords_le hw) hg]

/-- Writing a register that exists, at its address. -/
theorem busWrite_regAddr {s : State} {g : Reg} (w : Word) (hw : s.Wf) (hg : g.mapped (windowWords s)) :
    busWrite w (regAddr g) s = writeReg w s g := by
  rw [busWrite, regAt_regAddr (windowWords_le hw) hg]

/-- A bus write is either ignored or the write of the one register at that address. -/
theorem busWrite_cases {s : State} {addr : Nat} (w : Word) (ha : addr % 4 = 0) :
    busWrite w addr s = s ∨ ∃ g, g.mapped (windowWords s) ∧ addr = regAddr g ∧ busWrite w addr s = writeReg w s g := by
  unfold busWrite
  cases h : regAt (windowWords s) addr with
  | none => exact .inl rfl
  | some g => exact .inr ⟨g, (regAt_sound ha h).1, (regAt_sound ha h).2, rfl⟩

/-! ## Buffer windows -/

@[simp] theorem setWindowWord_length (buf : BitString) (k : Nat) (w : Word) :
    (setWindowWord buf k w).length = buf.length := by
  simp [setWindowWord]; omega

/-- The positions of word k take the word's bits (20_memory.md R62). -/
theorem setWindowWord_getElem?_inside {buf : BitString} {k j : Nat} (w : Word) (hj : j < 32)
    (hl : 32 * k + j < buf.length) : (setWindowWord buf k w)[32 * k + j]? = some (w.getLsbD (31 - j)) := by
  have hb := bits_getElem?_of_bitVec (w := 32) w hj
  have h1 : (buf.take (32 * k)).length = 32 * k := by simp; omega
  rw [setWindowWord, List.append_assoc, List.getElem?_append_right (by omega), h1, Nat.add_sub_cancel_left,
    List.getElem?_append_left (by simp only [List.length_take, bits_length]; omega),
    List.getElem?_take_of_lt (by omega), hb]

/-- Every other position of the buffer keeps its bit (20_memory.md R62, R67). -/
theorem setWindowWord_getElem?_outside {buf : BitString} {k p : Nat} (w : Word)
    (hp : p < 32 * k ∨ 32 * k + 32 ≤ p) : (setWindowWord buf k w)[p]? = buf[p]? := by
  by_cases hl : p < buf.length
  · rcases hp with hp | hp
    · rw [setWindowWord, List.append_assoc, List.getElem?_append_left (by simp; omega),
        List.getElem?_take_of_lt hp]
    · rw [setWindowWord, List.getElem?_append_right (by simp; omega), List.getElem?_drop]
      congr 1
      simp
      omega
  · rw [List.getElem?_eq_none (by simp; omega), List.getElem?_eq_none (by omega)]

/-- Bit 31-j of a window word is the buffer's position 32k+j, and 0 past its end (20_memory.md R62). -/
theorem windowWord_getLsbD {buf : BitString} {k j : Nat} (hj : j < 32) :
    (windowWord buf k).getLsbD (31 - j) = buf.getD (32 * k + j) false := by
  have hl : (padTo 32 (slice buf (32 * k) 32)).length = 32 := by
    rw [padTo_length, slice_length]; omega
  rw [windowWord, BitVec.getLsbD_ofNat, val_testBit, hl, show 32 - 1 - (31 - j) = j by omega]
  simp only [show 31 - j < 32 by omega, decide_true, Bool.true_and, List.getD_eq_getElem?_getD]
  by_cases h : j < (slice buf (32 * k) 32).length
  · rw [padTo_getElem?_lt h, slice_getElem? hj]
  · have h2 := slice_length buf (32 * k) 32
    rw [padTo_getElem?_ge (by omega) hj, List.getElem?_eq_none (l := buf) (by omega)]
    rfl

/-! ## What a register write touches -/

@[simp] theorem writeReg_maxPayload (w : Word) (s : State) (g : Reg) :
    (writeReg w s g).maxPayload = s.maxPayload := by
  cases g <;> try rfl
  simp only [writeReg]; split <;> rfl

@[simp] theorem writeReg_draws (w : Word) (s : State) (g : Reg) : (writeReg w s g).draws = s.draws := by
  cases g <;> try rfl
  simp only [writeReg]; split <;> rfl

@[simp] theorem writeReg_pending (w : Word) (s : State) (g : Reg) : (writeReg w s g).pending = s.pending := by
  cases g <;> try rfl
  simp only [writeReg]; split <;> rfl

@[simp] theorem writeReg_reads (w : Word) (s : State) (g : Reg) : (writeReg w s g).reads = s.reads := by
  cases g <;> try rfl
  simp only [writeReg]; split <;> rfl

@[simp] theorem capacity_writeReg (w : Word) (s : State) (g : Reg) : capacity (writeReg w s g) = capacity s := by
  simp [capacity]

/-- A register write keeps the form of State.Wf. -/
theorem writeReg_wf {s : State} (w : Word) (g : Reg) (h : s.Wf) : (writeReg w s g).Wf := by
  have hc := capacity_writeReg w s g
  cases g <;> try exact h
  case ilen =>
    simp only [writeReg]
    split
    · exact ⟨h.1, h.2.1, h.2.2.1, ‹_›, h.2.2.2.2⟩
    · exact h
  case ibuf k =>
    exact ⟨h.1, by rw [hc]; simpa [writeReg] using h.2.1, h.2.2⟩

/-- A bus write keeps the form of State.Wf. -/
theorem busWrite_wf {s : State} (w : Word) (addr : Nat) (h : s.Wf) : (busWrite w addr s).Wf := by
  unfold busWrite
  split
  · exact writeReg_wf w _ h
  · exact h

end Sys2Proof.Machine
end

