-- ==== Sys2Proof/Laws/Exec.lean ====
section
/-! SUPPORT. The meaning of each command over the named updates: one equation per command, so that a proof about a
command rewrites with its equation instead of unfolding the shared operations. -/

namespace Sys2Proof.Machine

variable (s : State)

theorem exec_nop : exec .nop s = .next (setErr 0 s) := rfl

theorem exec_enc8 : exec .enc8 s =
    if 256 ≤ s.a.toNat then .next (setErr 2 s) else .next (setErr 0 (emit (bits 8 s.a.toNat) s)) := by
  simp only [exec, execEnc8, encodeA, operandA]; rfl

theorem exec_enc7 : exec .enc7 s =
    if 128 ≤ s.a.toNat then .next (setErr 2 s) else .next (setErr 0 (emit (bits 7 s.a.toNat) s)) := by
  simp only [exec, execEnc7, encodeA, operandA]; rfl

theorem exec_enc16 : exec .enc16 s =
    if 65536 ≤ s.a.toNat then .next (setErr 2 s) else .next (setErr 0 (emit (bits 16 s.a.toNat) s)) := by
  simp only [exec, execEnc16, encodeA, operandA]; rfl

theorem exec_dec : exec .dec s =
    if s.ilen = 0 then .next (setErr 1 s) else if 32 < s.ilen then .next (setErr 2 s)
    else .next (setErr 0 (setResult (BitVec.ofNat 32 (val (inbits s))) s)) := rfl

theorem exec_rev : exec .rev s = .next (setErr 0 (emit (rev (inbits s)) s)) := rfl

theorem exec_movoi : exec .movoi s = .next (setErr 0 (copyOutToIn s)) := rfl

theorem exec_jrenc : exec .jrenc s =
    if 63 < s.a.toNat then .next (setErr 2 s)
    else .next (setErr 0 (storeToken (BitVec.ofNat 6 s.a.toNat) s)) := rfl

theorem exec_jrgen : exec .jrgen s = .next (setErr 0 (afterDraw (storeToken (Config.rnd6 s.draws) s))) := rfl

theorem exec_jrdec : exec .jrdec s =
    if 255 < s.a.toNat then .next (setErr 2 s)
    else .next (setErr 0 (setResult (jrdecResult (BitVec.ofNat 8 s.a.toNat)) s)) := rfl

theorem exec_serhdr : exec .serhdr s =
    if 128 ≤ s.hPhr.toNat then .next (setErr 2 s) else .next (setErr 0 (emit (headerString s) s)) := rfl

theorem exec_deshdr : exec .deshdr s =
    if s.ilen < hdrw s then .next (setErr 1 s) else .next (setErr 0 (setHeader (inputHeader s) s)) := rfl

theorem exec_serfrm : exec .serfrm s =
    if 128 ≤ s.hPhr.toNat then .next (setErr 2 s) else if s.maxPayload < s.plen.toNat then .next (setErr 2 s)
    else .next (setErr 0 (emit (frameString s) s)) := rfl

theorem exec_desfrm : exec .desfrm s =
    if s.ilen % 8 ≠ 0 then .next (setErr 1 s) else if s.ilen < hdrw s + 104 then .next (setErr 1 s)
    else if s.maxPayload < payloadCount s then .next (setErr 2 s) else .next (setErr 0 (loadFrame s)) := rfl

theorem exec_locate : exec .locate s =
    .next (setErr 0 (setResult (BitVec.ofNat 32 (locateField s.jrEn s.jrEarly s.a.toNat)) s)) := rfl

end Sys2Proof.Machine
end

