-- ==== Sys2Proof/Laws/PerInstr.lean ====
section
/-! SUPPORT. Statements made of every command, one lemma per constructor. -/

namespace Sys2Proof.Laws

/-- The encoding of a command is a legal word of 32 bits that the decoder and the table's reading of it read back as
that command (30_encoding.md R80, R82, R84). -/
def EncodingRoundTrip.Statement (i : Instr) : Prop :=
  i.wellFormed = true ∧ legalCommandWord (encode i) = true ∧ decode (encode i) = .ok i ∧
    decodeTableWord 32 (encode i).toNat = some i

theorem EncodingRoundTrip.nop : EncodingRoundTrip.Statement .nop := ⟨rfl, rfl, rfl, rfl⟩
theorem EncodingRoundTrip.enc8 : EncodingRoundTrip.Statement .enc8 := ⟨rfl, rfl, rfl, rfl⟩
theorem EncodingRoundTrip.enc7 : EncodingRoundTrip.Statement .enc7 := ⟨rfl, rfl, rfl, rfl⟩
theorem EncodingRoundTrip.enc16 : EncodingRoundTrip.Statement .enc16 := ⟨rfl, rfl, rfl, rfl⟩
theorem EncodingRoundTrip.dec : EncodingRoundTrip.Statement .dec := ⟨rfl, rfl, rfl, rfl⟩
theorem EncodingRoundTrip.rev : EncodingRoundTrip.Statement .rev := ⟨rfl, rfl, rfl, rfl⟩
theorem EncodingRoundTrip.movoi : EncodingRoundTrip.Statement .movoi := ⟨rfl, rfl, rfl, rfl⟩
theorem EncodingRoundTrip.jrenc : EncodingRoundTrip.Statement .jrenc := ⟨rfl, rfl, rfl, rfl⟩
theorem EncodingRoundTrip.jrgen : EncodingRoundTrip.Statement .jrgen := ⟨rfl, rfl, rfl, rfl⟩
theorem EncodingRoundTrip.jrdec : EncodingRoundTrip.Statement .jrdec := ⟨rfl, rfl, rfl, rfl⟩
theorem EncodingRoundTrip.serhdr : EncodingRoundTrip.Statement .serhdr := ⟨rfl, rfl, rfl, rfl⟩
theorem EncodingRoundTrip.deshdr : EncodingRoundTrip.Statement .deshdr := ⟨rfl, rfl, rfl, rfl⟩
theorem EncodingRoundTrip.serfrm : EncodingRoundTrip.Statement .serfrm := ⟨rfl, rfl, rfl, rfl⟩
theorem EncodingRoundTrip.desfrm : EncodingRoundTrip.Statement .desfrm := ⟨rfl, rfl, rfl, rfl⟩
theorem EncodingRoundTrip.locate : EncodingRoundTrip.Statement .locate := ⟨rfl, rfl, rfl, rfl⟩

end Sys2Proof.Laws
end

