-- ==== Sys2Proof/Laws/Step.lean ====
section
/-! SUPPORT. What a step can do, said once. -/

namespace Sys2Proof.Machine

/-- With nothing pending the block idles. -/
theorem step_idle {s : State} (h : s.pending = []) : step s = .next s := by
  simp [step, hostStep, h]

/-- With an access pending, the step makes it. -/
theorem step_access {s : State} {op : HostOp} {rest : List HostOp} (h : s.pending = op :: rest) :
    step s = hostAccess op (popAccess rest s) := by
  simp [step, hostStep, h]

/-- If a step answers next t, the block idled or made its oldest pending access. -/
theorem step_cases {s t : State} (h : step s = .next t) :
    (s.pending = [] ∧ t = s) ∨
    ∃ op rest, s.pending = op :: rest ∧ hostAccess op (popAccess rest s) = .next t := by
  cases hp : s.pending with
  | nil => rw [step_idle hp] at h; cases h; exact .inl ⟨rfl, rfl⟩
  | cons op rest => rw [step_access hp] at h; exact .inr ⟨op, rest, rfl, h⟩

theorem accessDefined_iff {addr n : Nat} : accessDefined addr n = true ↔ n = 4 ∧ addr % 4 = 0 := by
  simp [accessDefined]

/-- A read answers a next state only where the access is defined. -/
theorem hostRead_next {addr n : Nat} {s t : State} (h : hostRead addr n s = .next t) :
    n = 4 ∧ addr % 4 = 0 ∧ t = logRead (busRead s addr) s := by
  unfold hostRead at h
  split at h
  · cases h
  · split at h
    · cases h
    · rename_i hd
      have hd := accessDefined_iff.mp (by simpa using hd)
      cases h
      exact ⟨hd.1, hd.2, rfl⟩

/-- A write answers a next state only where the access is defined; at CMD's address it runs the command. -/
theorem hostWrite_next {addr n : Nat} {w : Word} {s t : State} (h : hostWrite addr n w s = .next t) :
    n = 4 ∧ addr % 4 = 0 ∧
      ((addr = 0x008 ∧ commandStep w (busWrite w addr s) = .next t) ∨
       (addr ≠ 0x008 ∧ t = busWrite w addr s)) := by
  unfold hostWrite at h
  split at h
  · cases h
  · split at h
    · cases h
    · rename_i hd
      have hd := accessDefined_iff.mp (by simpa using hd)
      refine ⟨hd.1, hd.2, ?_⟩
      split at h
      · exact .inl ⟨‹_›, h⟩
      · cases h; exact .inr ⟨‹_›, rfl⟩

/-- A defined read records the word it reads. -/
theorem hostRead_defined {addr : Nat} (s : State) (h1 : addr < 4096) (h2 : addr % 4 = 0) :
    hostRead addr 4 s = .next (logRead (busRead s addr) s) := by
  simp [hostRead, inAddressSpace, accessDefined, h1, h2]

/-- A defined write makes the bus write, and at CMD's address runs the command too. -/
theorem hostWrite_defined {addr : Nat} (s : State) (w : Word) (h1 : addr < 4096) (h2 : addr % 4 = 0) :
    hostWrite addr 4 w s =
      if addr = 0x008 then commandStep w (busWrite w addr s) else .next (busWrite w addr s) := by
  simp only [hostWrite, inAddressSpace, accessDefined_iff.mpr ⟨rfl, h2⟩, h1, decide_true, Bool.not_true,
    Bool.false_eq_true, if_false]
  rfl

/-- The step of a defined host read: it records the word at that address in the state without the access. -/
theorem step_read {s : State} {addr : Nat} {rest : List HostOp} (h1 : addr < 4096) (h2 : addr % 4 = 0)
    (hp : s.pending = .read addr 4 :: rest) :
    step s = .next (logRead (busRead (popAccess rest s) addr) (popAccess rest s)) :=
  (step_access hp).trans (hostRead_defined _ h1 h2)

/-- The step of a host write to a register that exists, other than CMD: the register write and nothing else. -/
theorem step_write_reg {s : State} {g : Reg} {w : Word} {rest : List HostOp} (hw : s.Wf)
    (hg : g.mapped (windowWords s)) (hne : g ≠ .cmd) (hp : s.pending = .write (regAddr g) 4 w :: rest) :
    step s = .next (writeReg w (popAccess rest s) g) := by
  have hn := windowWords_le hw
  have hb : regAddr g < 4096 ∧ regAddr g % 4 = 0 ∧ regAddr g ≠ 0x008 := by
    cases g <;> first
      | exact absurd rfl hne
      | exact ⟨by decide, by decide, by decide⟩
      | simp only [Reg.mapped, regAddr] at hg ⊢; omega
  rw [step_access hp, hostAccess, hostWrite_defined _ w hb.1 hb.2.1, if_neg hb.2.2,
    busWrite_regAddr (s := popAccess rest s) w hw hg]

/-- A write to CMD stores the word and runs the command (30_encoding.md R81). -/
theorem hostWrite_cmd (s : State) (w : Word) : hostWrite 0x008 4 w s = commandStep w (setCmd w s) := rfl

/-- If an access answers next t, it is one of: a recorded read, a bus write, a command after the store of its word,
or the reset. -/
theorem hostAccess_cases {op : HostOp} {s t : State} (h : hostAccess op s = .next t) :
    (∃ addr, op = .read addr 4 ∧ t = logRead (busRead s addr) s) ∨
    (∃ addr w, op = .write addr 4 w ∧ addr ≠ 0x008 ∧ addr % 4 = 0 ∧ t = busWrite w addr s) ∨
    (∃ w, op = .write 0x008 4 w ∧ commandStep w (setCmd w s) = .next t) ∨
    (op = .reset ∧ t = blockReset s) := by
  cases op with
  | read addr n =>
    obtain ⟨rfl, -, ht⟩ := hostRead_next h
    exact .inl ⟨addr, rfl, ht⟩
  | write addr n w =>
    obtain ⟨rfl, ha, ⟨rfl, h⟩ | ⟨hne, ht⟩⟩ := hostWrite_next h
    · exact .inr (.inr (.inl ⟨w, rfl, h⟩))
    · exact .inr (.inl ⟨addr, w, rfl, hne, ha, ht⟩)
  | reset => cases h; exact .inr (.inr (.inr ⟨rfl, rfl⟩))

/-- The command step: an illegal word writes STATUS.ERR alone, a legal one runs its command. -/
theorem commandStep_cases (w : Word) (s : State) :
    (∃ e, decode w = .error e ∧ commandStep w s = .next (setErr 4 s)) ∨
    (∃ i, decode w = .ok i ∧ commandStep w s = exec i s) := by
  unfold commandStep
  cases h : decode w with
  | error e => exact .inl ⟨e, rfl, rfl⟩
  | ok i => exact .inr ⟨i, rfl, rfl⟩

end Sys2Proof.Machine
end

