-- ==== Sys2Proof/Tests/Slice0.lean ====
section
/-! SUPPORT. Tests: the well-formedness check refuses, the decoder reads words written out from 30_encoding.md R80 and
R82, single steps against the vectors of 95_test_vectors.md, and for every obligation with hypotheses a concrete case
that meets them. -/

namespace Sys2Proof.Tests

open Sys2Proof.Machine

/- Each test is checked before the next begins: checked at once they would need as many threads as tests. -/
set_option Elab.async false

/-! ## Helpers -/

/-- The state a step answers with, if it answers one. -/
def nextOf : Out → Option State
  | .next t => some t
  | _ => none

/-- What `f` reads of the state a command answers with. -/
def after {α : Type} (i : Instr) (s : State) (f : State → α) : Option α := (nextOf (exec i s)).map f

/-- The reset state, with the input string of n bits that the words hold (30_encoding.md R86, `ldin_hex`). -/
def withInput (n : Nat) (ws : List Word) : State :=
  { State.reset with ilen := n, ibuf := padTo 1072 (ws.flatMap fun w => bits 32 w.toNat) }

/-- The reset state with A written. -/
def withA (a : Word) : State := { State.reset with a := a }

/-- The state with CFG written. -/
def withCfg (jrEn jrEarly : Bool) (s : State) : State := { s with jrEn := jrEn, jrEarly := jrEarly }

/-- The reset state with the host's accesses pending. -/
def withOps (ops : List HostOp) : State := { State.reset with pending := ops }

/-- Frame F of 95_test_vectors.md 2.4, under a CFG. -/
def frameF (jrEn jrEarly : Bool) : State :=
  { State.reset with
    jrEn := jrEn, jrEarly := jrEarly, hPhr := 14, hJrb := 0x93, mac := 0x0123456789ABCDEF012345, plen := 1,
    fcs := 0xBEEF }

/-- OBUF words 0 to n-1 as the host reads them. -/
def outWords (n : Nat) (t : State) : List Word := (List.range n).map fun k => busRead t (0x200 + 4 * k)

/-- The values the host has read, after one step. -/
def readsAfterStep (s : State) : Option (List Word) := (nextOf (step s)).map State.reads

/-! ## Well-formedness: a word or a state that breaks a check is refused -/

theorem test_wf_refuses_high_bits : legalCommandWord 0x00000100 = false := by decide
theorem test_wf_refuses_top_bit : legalCommandWord 0x80000000 = false := by decide
theorem test_wf_refuses_gap_07 : legalCommandWord 0x07 = false ∧ legalCommandWord 0x0F = false := by decide
theorem test_wf_refuses_gap_13 : legalCommandWord 0x13 = false ∧ legalCommandWord 0x1F = false := by decide
theorem test_wf_refuses_gap_22 : legalCommandWord 0x22 = false ∧ legalCommandWord 0x2F = false := by decide
theorem test_wf_refuses_gap_32 : legalCommandWord 0x32 = false ∧ legalCommandWord 0x3F = false := by decide
theorem test_wf_refuses_gap_41 : legalCommandWord 0x41 = false ∧ legalCommandWord 0xFF = false := by decide
theorem test_wf_accepts_edges :
    (legalCommandWord 0x06 && legalCommandWord 0x10 && legalCommandWord 0x12 && legalCommandWord 0x20 &&
      legalCommandWord 0x21 && legalCommandWord 0x30 && legalCommandWord 0x31 && legalCommandWord 0x40) = true := by
  decide
theorem test_wf_accepts_every_command : Instr.wellFormed .nop = true ∧ Instr.wellFormed .locate = true := by decide
theorem test_wf_refuses_long_ilen : ¬ ({ State.reset with ilen := 1073 } : State).Wf := by decide +kernel
theorem test_wf_refuses_short_buffer : ¬ ({ State.reset with ibuf := [] } : State).Wf := by decide +kernel
theorem test_wf_refuses_bit_past_olen : ¬ ({ State.reset with obuf := padTo 1072 [true] } : State).Wf := by
  decide +kernel
theorem test_wf_refuses_state_error : ¬ ({ State.reset with err := 3 } : State).Wf := by decide +kernel
theorem test_wf_refuses_large_payload : ¬ ({ State.reset with maxPayload := 237 } : State).Wf := by decide +kernel

/-! ## Decoding: words written out from R80 (24 zero bits, 8 opcode bits) and R82 -/

theorem test_decode_nop : decode 0b000000000000000000000000_00000000 = .ok .nop := by rfl
theorem test_decode_enc8 : decode 0b000000000000000000000000_00000001 = .ok .enc8 := by rfl
theorem test_decode_enc7 : decode 0b000000000000000000000000_00000010 = .ok .enc7 := by rfl
theorem test_decode_enc16 : decode 0b000000000000000000000000_00000011 = .ok .enc16 := by rfl
theorem test_decode_dec : decode 0b000000000000000000000000_00000100 = .ok .dec := by rfl
theorem test_decode_rev : decode 0b000000000000000000000000_00000101 = .ok .rev := by rfl
theorem test_decode_movoi : decode 0b000000000000000000000000_00000110 = .ok .movoi := by rfl
theorem test_decode_jrenc : decode 0b000000000000000000000000_00010000 = .ok .jrenc := by rfl
theorem test_decode_jrgen : decode 0b000000000000000000000000_00010001 = .ok .jrgen := by rfl
theorem test_decode_jrdec : decode 0b000000000000000000000000_00010010 = .ok .jrdec := by rfl
theorem test_decode_serhdr : decode 0b000000000000000000000000_00100000 = .ok .serhdr := by rfl
theorem test_decode_deshdr : decode 0b000000000000000000000000_00100001 = .ok .deshdr := by rfl
theorem test_decode_serfrm : decode 0b000000000000000000000000_00110000 = .ok .serfrm := by rfl
theorem test_decode_desfrm : decode 0b000000000000000000000000_00110001 = .ok .desfrm := by rfl
theorem test_decode_locate : decode 0b000000000000000000000000_01000000 = .ok .locate := by rfl
theorem test_decode_refuses_high_bits : decode 0b000000000000000000000001_00000000 = .error .nonzeroHighBits := by rfl
theorem test_decode_refuses_opcode : decode 0b000000000000000000000000_00000111 = .error .unassignedOpcode := by rfl
theorem test_decode_table_word :
    decodeTableWord 32 0x31 = some .desfrm ∧ decodeTableWord 8 0x31 = some .desfrm ∧
      decodeTableWord 32 0x0100 = none ∧ decodeTableWord 64 0x100000000 = none := by decide

/-! ## One command each, against 95_test_vectors.md sections 2.1 to 2.5 -/

theorem test_nop_clears_err :
    after .nop { State.reset with err := 2, r := 7 } (fun t => (t.err, t.r)) = some (0, 7) := by decide
theorem test_enc8_sfd :
    after .enc8 (withA 0xA7) (fun t => (t.err, t.olen, outWords 2 t)) = some (0, 8, [0xA7000000, 0]) := by
  decide +kernel
theorem test_enc8_256 : after .enc8 { withA 256 with olen := 5 } (fun t => (t.err, t.olen)) = some (2, 5) := by
  decide +kernel
theorem test_enc7_five :
    after .enc7 (withA 5) (fun t => (t.err, t.olen, outWords 1 t)) = some (0, 7, [0x0A000000]) := by decide +kernel
theorem test_enc7_128 : after .enc7 (withA 128) (fun t => (t.err, t.olen)) = some (2, 0) := by decide +kernel
theorem test_enc16_beef :
    after .enc16 (withA 0xBEEF) (fun t => (t.err, t.olen, outWords 1 t)) = some (0, 16, [0xBEEF0000]) := by
  decide +kernel
theorem test_enc16_65536 : after .enc16 (withA 0x10000) (fun t => (t.err, t.olen)) = some (2, 0) := by decide +kernel
theorem test_dec_sign_bit_is_no_sign :
    after .dec (withInput 32 [0x80000000]) (fun t => (t.err, t.r)) = some (0, 0x80000000) := by decide +kernel
theorem test_dec_33_zeros : after .dec (withInput 33 []) (fun t => (t.err, t.r)) = some (2, 0) := by decide +kernel
theorem test_rev_three :
    after .rev (withInput 3 [0xC0000000]) (fun t => (t.err, t.olen, outWords 1 t)) = some (0, 3, [0x60000000]) := by
  decide +kernel
theorem test_rev_crosses_a_word :
    after .rev (withInput 40 [0x80000000]) (fun t => (t.olen, outWords 2 t)) = some (40, [0, 0x01000000]) := by
  decide +kernel
theorem test_movoi_copies :
    after .movoi { withInput 40 [0xFFFFFFFF] with olen := 8, obuf := padTo 1072 (bits 8 0xA7) }
      (fun t => (t.err, t.ilen, t.olen, busRead t 0x100)) = some (0, 8, 8, 0xA7000000) := by decide +kernel
theorem test_jrenc_36 : after .jrenc (withA 36) (fun t => (t.err, t.r, t.hJrb)) = some (0, 0x93, 0x93) := by
  decide +kernel
theorem test_jrenc_64 : after .jrenc (withA 64) (fun t => (t.err, t.r, t.hJrb)) = some (2, 0, 0) := by decide +kernel
theorem test_jrgen_draws_once : after .jrgen State.reset (fun t => (t.err, t.draws)) = some (0, 1) := by rfl
theorem test_jrgen_token_is_the_byte_of_36 : jr 36 = 0x93 ∧ jr 0 = 0x00 ∧ jr 56 = 0xE2 ∧ jr 63 = 0xFF := by decide
theorem test_jrdec_low_group_fails : after .jrdec (withA 0x97) (fun t => (t.err, t.r)) = some (0, 0x125) := by
  decide +kernel
theorem test_jrdec_high_group_fails : after .jrdec (withA 0x91) (fun t => (t.err, t.r)) = some (0, 0x224) := by
  decide +kernel
theorem test_serhdr_late :
    after .serhdr { State.reset with jrEn := true, hPhr := 20, hJrb := 0x93 }
      (fun t => (t.err, t.olen, outWords 2 t)) = some (0, 56, [0, 0xA7149300]) := by decide +kernel
theorem test_serhdr_disabled :
    after .serhdr { State.reset with jrEarly := true, hPhr := 20, hJrb := 0x93, hPre := 0xFFFFFFFF, hRsv := true }
      (fun t => (t.err, t.olen, outWords 2 t)) = some (0, 48, [0, 0xA7280000]) := by decide +kernel
theorem test_deshdr_late_layout_of_an_early_string :
    after .deshdr { withInput 56 [0, 0xA7931400] with jrEn := true }
      (fun t => (t.err, t.hPre, t.hSfd, t.hJrb, t.hPhr, t.hRsv)) = some (0, 0, 0xA7, 0x14, 19, true) := by
  decide +kernel
theorem test_deshdr_47 : after .deshdr (withInput 47 [0, 0xA7280000]) (fun t => (t.err, t.hPhr)) = some (1, 0) := by
  decide +kernel
theorem test_serfrm_disabled :
    after .serfrm (frameF false false) (fun t => (t.err, t.olen, outWords 5 t)) =
      some (0, 160, [0x00000000, 0xA71C0123, 0x456789AB, 0xCDEF0123, 0x4500BEEF]) := by decide +kernel
theorem test_serfrm_early :
    after .serfrm (frameF true true) (fun t => (t.err, t.olen, outWords 6 t)) =
      some (0, 168, [0x00000000, 0xA7930E01, 0x23456789, 0xABCDEF01, 0x234500BE, 0xEF000000]) := by decide +kernel
theorem test_desfrm_other_layout :
    after .desfrm (withCfg true true (withInput 160 [0x00000000, 0xA71C0123, 0x456789AB, 0xCDEF0123, 0x4500BEEF]))
      (fun t => [0x004, 0x020, 0x024, 0x028, 0x02C, 0x030, 0x034, 0x038, 0x03C, 0x040].map (busRead t)) =
      some [0, 0xA7, 0x1C, 1, 0, 0, 0xBEEF, 0x23456789, 0xABCDEF01, 0x23450000] := by decide +kernel
theorem test_desfrm_1072_disabled :
    after .desfrm (withInput 1072 []) (fun t => (t.err, t.plen, t.hSfd)) = some (2, 0, 0xA7) := by decide +kernel
theorem test_locate_early :
    after .locate { withA 63 with jrEn := true, jrEarly := true } (fun t => (t.err, t.r)) = some (0, 9) := by
  decide +kernel
theorem test_locate_largest : after .locate (withA 0xFFFFFFFF) (fun t => (t.err, t.r)) = some (0, 19) := by
  decide +kernel

/-! ## One host access each, against 95_test_vectors.md section 2.6 -/

theorem test_write_cmd_illegal :
    (nextOf (step (withOps [.write 0x008 4 0x100]))).map (fun t => (t.err, t.cmd, t.pending)) =
      some (4, 0x100, []) := by decide +kernel
theorem test_write_ilen_1073 :
    (nextOf (step { withOps [.write 0x014 4 1073] with ilen := 8 })).map State.ilen = some 8 := by decide +kernel
theorem test_write_ilen_high_bits :
    (nextOf (step (withOps [.write 0x014 4 0x1008]))).map State.ilen = some 8 := by decide +kernel
theorem test_write_ibuf_last_word :
    (nextOf (step (withOps [.write 0x184 4 0xFFFFFFFF]))).map (fun t => (busRead t 0x184, busRead t 0x188, t.ilen)) =
      some (0xFFFF0000, 0, 0) := by decide +kernel
theorem test_write_mac2 :
    (nextOf (step (withOps [.write 0x040 4 0xFFFFFFFF]))).map (fun t => (busRead t 0x03C, busRead t 0x040)) =
      some (0, 0xFFFFFF00) := by decide +kernel
theorem test_write_phr_then_read :
    (nextOf (step (withOps [.write 0x028 4 0x1FF]))).map (fun t => (t.hPhr, t.plen, busRead t 0x028, busRead t 0x030)) =
      some (0xFF, 0, 0xFF, 0) := by decide +kernel
theorem test_read_param : readsAfterStep (withOps [.read 0x044 4]) = some [0x04300072] := by decide +kernel
theorem test_read_unaligned_is_refused :
    step (withOps [.read 0x002 4]) = .refused (.undefinedAccess 0x002 4) := by rfl
theorem test_read_outside_faults : step (withOps [.read 0x1000 4]) = .fault (.outsideAddressSpace 0x1000) := by rfl
theorem test_placed_command_runs :
    (nextOf (step (State.reset.withFetchWord 32 0x30))).map (fun t => (t.cmd, t.err, t.olen, outWords 2 t)) =
      some (0x30, 0, 152, [0, 0xA7000000]) := by decide +kernel

/-! ## For each obligation with hypotheses, cases that meet them, each clause at the edges of its range -/

theorem test_witness_IllegalWordsAreExactlyTheListed :
    (0x100 : Word).toNat / 256 ≠ 0 ∧ (0xFFFFFFFF : Word).toNat / 256 ≠ 0 ∧
      (∀ w ∈ ([0x07, 0x0F, 0x13, 0x1F, 0x22, 0x2F, 0x32, 0x3F, 0x41, 0xFF] : List Word),
        w.toNat / 256 = 0 ∧ reservedOpcode (w.toNat % 256) = true) ∧
      (∀ w ∈ ([0x00, 0x06, 0x10, 0x12, 0x20, 0x21, 0x30, 0x31, 0x40] : List Word), legalCommandWord w = true) :=
  ⟨by decide, by decide, by simp [reservedOpcode], by simp [legalCommandWord, reservedOpcode]⟩

theorem test_witness_StepRunsTheDecodedCommand :
    decode 0x30 = .ok .serfrm ∧ (withOps [.write 0x008 4 0x30]).pending = [.write 0x008 4 0x30] := ⟨rfl, rfl⟩

theorem test_witness_IllegalWordRaisesIllegalCommand :
    (∀ w ∈ ([0x100, 0x80000000, 0x07, 0x0F, 0x41, 0xFF] : List Word),
      w.toNat / 256 ≠ 0 ∨ reservedOpcode (w.toNat % 256) = true) ∧
    (withOps [.write 0x008 4 0x100, .write 0x008 4 0x30]).pending = .write 0x008 4 0x100 :: [.write 0x008 4 0x30] ∧
    decode 0x30 = .ok .serfrm := ⟨by simp [reservedOpcode], rfl, rfl⟩

theorem test_witness_IdleStepAndPlacedCommand : State.reset.pending = [] := rfl

theorem test_witness_HostReadChangesNothing :
    (0xFFC < 4096 ∧ 0xFFC % 4 = 0 ∧ (withOps [.read 0xFFC 4]).pending = [.read 0xFFC 4]) ∧
    (0x000 < 4096 ∧ 0x000 % 4 = 0 ∧ (withOps [.read 0x000 4]).pending = [.read 0x000 4]) := by decide +kernel

theorem test_witness_HostWriteChangesOnlyItsWord :
    ∀ addr ∈ [0x000, 0x004, 0x00C, 0x040, 0x184, 0x200, 0xFFC],
      (withOps [.write addr 4 0xFFFFFFFF]).Wf ∧ addr < 4096 ∧ addr % 4 = 0 ∧ addr ≠ 0x008 ∧
        (∃ b ∈ [0x03C, 0x100], b < 4096 ∧ b % 4 = 0 ∧ b ≠ addr) := by decide +kernel

theorem test_witness_UndefinedAccessIsRefused :
    (4095 < 4096 ∧ 4095 % 4 ≠ 0 ∧ (withOps [.read 4095 4]).pending = [.read 4095 4]) ∧
    (0x008 < 4096 ∧ 2 ≠ 4 ∧ (withOps [.write 0x008 2 0]).pending = [.write 0x008 2 0]) := by decide +kernel

theorem test_witness_OutsideAccessFaults :
    4096 ≤ 4096 ∧ (withOps [.read 4096 4]).pending = [.read 4096 4] ∧
      (withOps [.write 4096 4 0]).pending = [.write 4096 4 0] := by decide +kernel

theorem test_witness_DefinedAccessesNeverStop :
    (withOps [.read 0 4, .write 0xFFC 4 5, .write 0x008 4 0xFF, .reset]).ScheduleDefined := by decide +kernel

theorem test_witness_ResetInputRestoresEveryRegister : (withOps [.reset]).pending = .reset :: [] := rfl

theorem test_witness_StepKeepsWellFormed :
    (withOps [.write 0x008 4 0x30]).Wf ∧ ∃ t, step (withOps [.write 0x008 4 0x30]) = .next t :=
  ⟨by decide +kernel, _, rfl⟩

theorem test_witness_StepKeepsTheParameters : ∃ t, step (withOps [.write 0x044 4 0]) = .next t := ⟨_, rfl⟩

theorem test_witness_CommandsWriteOnlyTheirRegisters :
    (∃ t, exec .desfrm (withInput 152 []) = .next t ∧ t.err = 0) ∧
    (∃ t, exec .desfrm (withInput 151 []) = .next t ∧ t.err = 1) := ⟨⟨_, rfl, rfl⟩, ⟨_, rfl, rfl⟩⟩

theorem test_witness_FormatErrorExactlyWhenListed :
    FormatErrorCase .dec State.reset ∧ FormatErrorCase .deshdr (withInput 47 []) ∧
    FormatErrorCase .deshdr (withCfg true true (withInput 55 [])) ∧ FormatErrorCase .desfrm (withInput 1071 []) ∧
    FormatErrorCase .desfrm (withInput 144 []) ∧ (∃ t, exec .dec State.reset = .next t ∧ t.err = 1) :=
  ⟨by simp [FormatErrorCase, State.reset], .inr (.inl ⟨rfl, by decide⟩), .inr (.inl ⟨rfl, by decide⟩),
    .inr (.inr (.inl ⟨rfl, by decide⟩)), .inr (.inr (.inr ⟨rfl, by decide⟩)), _, rfl, rfl⟩

theorem test_witness_RangeErrorExactlyWhenListed :
    RangeErrorCase .enc8 (withA 256) ∧ RangeErrorCase .enc7 (withA 128) ∧ RangeErrorCase .enc16 (withA 65536) ∧
    RangeErrorCase .dec (withInput 33 []) ∧ RangeErrorCase .jrenc (withA 64) ∧ RangeErrorCase .jrdec (withA 256) ∧
    RangeErrorCase .serhdr { State.reset with hPhr := 128 } ∧ RangeErrorCase .serfrm { State.reset with hPhr := 128 } ∧
    RangeErrorCase .serfrm { State.reset with plen := 115 } ∧ RangeErrorCase .desfrm (withInput 1072 []) ∧
    ¬ FormatErrorCase .desfrm (withInput 1072 []) ∧
    (∃ t, exec .desfrm (withInput 1072 []) = .next t ∧ t.err = 2) := by
  refine ⟨?_, ?_, ?_, ?_, ?_, ?_, ?_, ?_, ?_, ?_, ?_, _, rfl, rfl⟩ <;>
    simp [RangeErrorCase, FormatErrorCase, withA, withInput, hdrw, State.reset, Config.maxPayload]

theorem test_witness_OnlyJrgenDraws :
    (∃ t, exec .jrgen State.reset = .next t) ∧ Instr.rev ≠ .jrgen ∧ ∃ t, exec .rev State.reset = .next t :=
  ⟨⟨_, rfl⟩, by decide, _, rfl⟩

theorem test_witness_PositionsPastIlenAreNeverRead :
    (padTo 1072 (bits 16 0xA7FF)).take 8 = (withInput 8 [0xA7000000]).ibuf.take (withInput 8 [0xA7000000]).ilen ∧
    padTo 1072 (bits 16 0xA7FF) ≠ (withInput 8 [0xA7000000]).ibuf ∧
    (∃ t, exec .rev (withInput 8 [0xA7000000]) = .next t) ∧ ∃ t, exec .movoi (withInput 8 [0xA7000000]) = .next t :=
  ⟨by decide +kernel, by decide +kernel, ⟨_, rfl⟩, _, rfl⟩

theorem test_witness_EarlyFlagIgnoredWhenDisabled :
    State.reset.jrEn = false ∧ ∃ t, exec .serhdr State.reset = .next t := ⟨rfl, _, rfl⟩

theorem test_witness_PreambleAndReservedBitAreNeverRead :
    (∃ t, exec .deshdr (withInput 48 []) = .next t ∧ t.err = 0) ∧
    (∃ t, exec .deshdr (withInput 47 []) = .next t ∧ t.err = 1) ∧ ∃ t, exec .serhdr State.reset = .next t :=
  ⟨⟨_, rfl, rfl⟩, ⟨_, rfl, rfl⟩, _, rfl⟩

theorem test_witness_Enc8EmitsEightDigits : (withA 256).a.toNat > 255 ∧ (withA 255).a.toNat ≤ 255 := by decide
theorem test_witness_Enc7EmitsSevenDigits : (withA 128).a.toNat ≥ 128 ∧ (withA 127).a.toNat < 128 := by decide
theorem test_witness_Enc16EmitsSixteenDigits : (withA 65536).a.toNat > 65535 ∧ (withA 65535).a.toNat ≤ 65535 := by
  decide

theorem test_witness_DecReadsTheInputValue :
    ∀ n ∈ [0, 1, 32, 33], (withInput n [0x80000001]).Wf ∧ (withInput n [0x80000001]).ilen = n := by decide +kernel

theorem test_witness_RevEmitsTheReversedInput : (withInput 1072 [1]).Wf ∧ (withInput 0 [1]).Wf := by decide +kernel
theorem test_witness_MovoiCopiesTheOutput : State.reset.Wf ∧ State.reset.olen = 0 := by decide +kernel
theorem test_witness_RevTwiceGivesBackTheInput : (withInput 1072 [0x80000001]).Wf := by decide +kernel

theorem test_witness_DecReadsBackTheEncodedValue :
    (∃ t, exec .enc8 (withA 255) = .next t ∧ t.err = 0) ∧ (∃ t, exec .enc7 (withA 127) = .next t ∧ t.err = 0) ∧
    (∃ t, exec .enc16 (withA 65535) = .next t ∧ t.err = 0) := ⟨⟨_, rfl, rfl⟩, ⟨_, rfl, rfl⟩, ⟨_, rfl, rfl⟩⟩

theorem test_witness_JrencStoresTheTokenOfA : (withA 64).a.toNat > 63 ∧ (withA 63).a.toNat ≤ 63 := by decide
theorem test_witness_JrdecReportsBothVerdicts : (withA 256).a.toNat > 255 ∧ (withA 255).a.toNat ≤ 255 := by decide
theorem test_witness_JrdecDetectsOddErrorsPerGroup : (withA 0x97).a = (jr 36 ^^^ 0x04).setWidth 32 := by decide
theorem test_witness_JrdecReadsBackTheToken : ∃ t, exec .jrenc (withA 63) = .next t ∧ t.err = 0 := ⟨_, rfl, rfl⟩

theorem test_witness_SerhdrEmitsTheHeader :
    ({ State.reset with hPhr := 128 } : State).hPhr.toNat ≥ 128 ∧
    ({ State.reset with hPhr := 127 } : State).hPhr.toNat < 128 := by decide

theorem test_witness_DeshdrLoadsTheHeader :
    (withInput 47 [1]).Wf ∧ (withInput 48 [1]).Wf ∧ (withCfg true false (withInput 55 [1])).Wf ∧
    (withCfg true true (withInput 56 [1])).Wf := by decide +kernel

theorem test_witness_HeaderRoundTrip : ({ State.reset with hPhr := 127 } : State).hPhr.toNat < 128 := by decide

theorem test_witness_SerfrmEmitsTheFrame :
    ({ State.reset with hPhr := 128 } : State).hPhr.toNat ≥ 128 ∧
    ({ State.reset with plen := 115 } : State).plen.toNat > State.reset.maxPayload ∧
    ({ State.reset with plen := 114 } : State).plen.toNat ≤ State.reset.maxPayload ∧
    ({ State.reset with hPhr := 127 } : State).hPhr.toNat < 128 := by decide

theorem test_witness_DesfrmLoadsTheFrame :
    (∀ n ∈ [144, 151, 152, 1064, 1072], (withInput n [1]).Wf) ∧ 151 % 8 ≠ 0 ∧
    144 < hdrw State.reset + 104 ∧ 1072 > hdrw State.reset + 104 + 8 * State.reset.maxPayload ∧
    hdrw State.reset + 104 ≤ 152 ∧ 1064 ≤ hdrw State.reset + 104 + 8 * State.reset.maxPayload := by decide +kernel

theorem test_witness_FrameRoundTrip :
    (frameF true true).hPhr.toNat < 128 ∧ (frameF true true).plen.toNat ≤ (frameF true true).maxPayload := by decide

theorem test_witness_PhrIsIndependentOfThePayload :
    (∃ t t', exec .desfrm (withInput 160 [1]) = .next t ∧ exec .desfrm (withInput 160 [2]) = .next t' ∧ t.err = 0) ∧
    (frameF false false).hPhr.toNat < 128 ∧ (127 : BitVec 8).toNat < 128 ∧
    (frameF false false).plen.toNat ≤ (frameF false false).maxPayload :=
  ⟨⟨_, _, rfl, rfl, rfl⟩, by decide, by decide, by decide⟩

theorem test_witness_LocatorAgreesWithTheSerializer :
    (frameF true false).hPhr.toNat < 128 ∧ (frameF true false).plen.toNat ≤ (frameF true false).maxPayload ∧
    (∃ t, exec .locate (frameF true false) = .next t) ∧ ∃ u, exec .serfrm (frameF true false) = .next u :=
  ⟨by decide, by decide, ⟨_, rfl⟩, _, rfl⟩

theorem test_witness_LocateDependsOnCfgAndOffsetOnly :
    (withA 60).a = ({ withInput 60 [1] with a := 60, mac := 5 } : State).a ∧
    (∃ t, exec .locate (withA 60) = .next t) ∧
    ∃ t, exec .locate { withInput 60 [1] with a := 60, mac := 5 } = .next t := ⟨rfl, ⟨_, rfl⟩, _, rfl⟩

theorem test_witness_RegisterMapIsTheSpecs : State.reset.Wf ∧ 0x184 % 4 = 0 ∧ 0x188 % 4 = 0 := by decide +kernel

theorem test_witness_UnmappedWordReadsZero :
    State.reset.Wf ∧ ∀ addr ∈ [0x048, 0x188, 0x1FC, 0x288, 0xFFC], addr < 4096 ∧ addr % 4 = 0 ∧
      ∀ g : Reg, g.mapped (windowWords State.reset) → addr ≠ regAddr g := by
  refine ⟨by decide +kernel, ?_⟩
  intro addr h
  simp only [List.mem_cons, List.not_mem_nil, or_false] at h
  refine ⟨by omega, by omega, fun g hg => ?_⟩
  have hn : windowWords State.reset = 34 := rfl
  cases g <;> simp only [regAddr, Reg.mapped, hn] at hg ⊢ <;> omega

theorem test_witness_WritesReachOnlyWritableBits :
    (withOps [.write 0x284 4 5]).Wf ∧ regAddr (.obuf 33) = 0x284 ∧ Reg.readOnly (.obuf 33) = true ∧
    Reg.mapped (.obuf 33) (windowWords State.reset) ∧ (withOps [.write 0x004 4 5]).Wf ∧ Reg.readOnly .status = true ∧
    (∀ g ∈ [Reg.cfg, .cmd, .a, .hPhr, .hRsv, .plen, .fcs, .mac2],
      (withOps [.write (regAddr g) 4 0xFFFFFFFF]).Wf ∧ g.readOnly = false ∧ g ≠ .ilen) ∧
    (∀ k, Reg.mac2 ≠ .ibuf k) ∧ Reg.mapped .mac2 (windowWords State.reset) :=
  ⟨by decide +kernel, rfl, rfl, show 33 < 34 by decide, by decide +kernel, rfl, by decide +kernel,
    fun _ h => Reg.noConfusion h, trivial⟩

theorem test_witness_IlenWriteIsBounded :
    (withOps [.write 0x014 4 1072]).Wf ∧ (1072 : Word).toNat % 4096 ≤ capacity State.reset ∧
    (withOps [.write 0x014 4 1073]).Wf ∧ capacity State.reset < (1073 : Word).toNat % 4096 := by decide +kernel

theorem test_witness_BufferWindowsPackPositions :
    (withOps [.write 0x184 4 0xFFFFFFFF]).Wf ∧ 33 < windowWords State.reset ∧ 0x184 = 0x100 + 4 * 33 ∧
    32 * 33 + 15 < capacity State.reset ∧ windowWords State.reset ≤ 34 ∧ 63 < 64 := by decide +kernel

theorem test_witness_BytesOfAStringAreBigEndian : State.reset.Wf ∧ 8 * 133 + 8 ≤ capacity State.reset := by
  decide +kernel

theorem test_witness_CmdHoldsTheLastWordWritten :
    ∃ t, step (withOps [.write 0x008 4 0xFF]) = .next t ∧ ∃ u, exec .serhdr t = .next u := ⟨_, rfl, _, rfl⟩

theorem test_witness_CommandResultIsReadAtOnce :
    ({ withOps [.write 0x008 4 0x20, .read 0x018 4, .read 0x004 4] with hPhr := 127 } : State).hPhr.toNat < 128 ∧
    decode 0x12 = .ok .jrdec ∧
    (∀ addr ∈ [0x000, 0x010, 0xFFC], addr < 4096 ∧ addr % 4 = 0 ∧
      (withOps [.write 0x008 4 0x12, .read addr 4]).pending = .write 0x008 4 0x12 :: .read addr 4 :: []) :=
  ⟨by decide, rfl, by decide⟩

theorem test_witness_RegistersReadTheStateFields : (frameF true true).Wf := by decide +kernel

end Sys2Proof.Tests
end

/-! The form `State.Wf` is an invariant: every named update keeps it, hence every command, every host access
and every step. -/

namespace Sys2Proof.Machine

/-! ## The named updates -/

/-- STATUS.ERR may take any code the block writes (60_exceptions.md R203). -/
theorem setErr_wf {s : State} {c : BitVec 4} (hc : c = 0 ∨ c = 1 ∨ c = 2 ∨ c = 4) (h : s.Wf) : (setErr c s).Wf := by
  obtain ⟨hmax, hibuf, hobuf, hilen, holen, hzero, -⟩ := h
  exact ⟨hmax, hibuf, hobuf, hilen, holen, hzero, hc⟩

/-- Emitting keeps the form where the string fits the buffer (00_scope.md R12); the lemmas `*_fits` below show that
every emitted string does. -/
theorem emit_wf {s : State} {str : BitString} (hfit : str.length ≤ capacity s) (h : s.Wf) : (emit str s).Wf := by
  obtain ⟨hmax, hibuf, -, hilen, -, -, herr⟩ := h
  exact ⟨hmax, hibuf, by simpa using hfit, hilen, hfit, emit_zero_past_olen str s, herr⟩

theorem copyOutToIn_wf {s : State} (h : s.Wf) : (copyOutToIn s).Wf := by
  obtain ⟨hmax, -, hobuf, -, holen, hzero, herr⟩ := h
  exact ⟨hmax, hobuf, hobuf, holen, holen, hzero, herr⟩

theorem blockReset_wf {s : State} (h : s.Wf) : (blockReset s).Wf := by
  obtain ⟨hmax, -⟩ := h
  exact ⟨hmax, by simp, by simp, by simp, by simp, by simp, .inl rfl⟩

/-! The other updates touch no field that `State.Wf` speaks of. -/

theorem setResult_wf {s : State} (v : Word) (h : s.Wf) : (setResult v s).Wf := h

theorem storeToken_wf {s : State} (v : BitVec 6) (h : s.Wf) : (storeToken v s).Wf := h

theorem afterDraw_wf {s : State} (h : s.Wf) : (afterDraw s).Wf := h

theorem setHeader_wf {s : State} (f : HeaderFields) (h : s.Wf) : (setHeader f s).Wf := h

theorem loadFrame_wf {s : State} (h : s.Wf) : (loadFrame s).Wf := h

theorem setCmd_wf {s : State} (w : Word) (h : s.Wf) : (setCmd w s).Wf := h

theorem logRead_wf {s : State} (v : Word) (h : s.Wf) : (logRead v s).Wf := h

theorem popAccess_wf {s : State} (rest : List HostOp) (h : s.Wf) : (popAccess rest s).Wf := h

/-! ## The strings the commands emit fit the buffer -/

theorem bits_fits {s : State} {w v : Nat} (hw : w ≤ 160) : (bits w v).length ≤ capacity s := by
  rw [bits_length, capacity_eq]; omega

theorem rev_inbits_fits {s : State} (h : s.Wf) : (rev (inbits s)).length ≤ capacity s := by
  obtain ⟨-, -, -, hilen, -⟩ := h
  simp only [rev, inbits, List.length_reverse, List.length_take]
  omega

theorem headerString_fits (s : State) : (headerString s).length ≤ capacity s := by
  have hwidth := hdrw_cases s
  rw [headerString_length, capacity_eq]
  omega

/-- MAXBITS is the length of the largest frame the PLEN check of SERFRM lets through (00_scope.md R7). -/
theorem frameString_fits {s : State} (hplen : s.plen.toNat ≤ s.maxPayload) :
    (frameString s).length ≤ capacity s := by
  have hwidth := hdrw_cases s
  rw [frameString_length, frameLength, capacity_eq]
  omega

/-! ## Commands, accesses and steps -/

/-- The encoder that ENC8, ENC7 and ENC16 share keeps the form: it refuses A or emits digits that fit. -/
theorem encodeA_wf {w : Nat} {s t : State} (hw : w ≤ 160) (hs : s.Wf) (h : encodeA w s = .next t) : t.Wf := by
  rcases Nat.lt_or_ge s.a.toNat (2 ^ w) with hfits | hbig
  · rw [encodeA_of_fits hfits] at h; cases h; exact setErr_wf (by decide) (emit_wf (bits_fits hw) hs)
  · rw [encodeA_of_too_big hbig] at h; cases h; exact setErr_wf (by decide) hs

/-- Every command keeps the form: it either writes an error code alone, or completes over updates that keep it. -/
theorem exec_wf {i : Instr} {s t : State} (hs : s.Wf) (h : exec i s = .next t) : t.Wf := by
  cases i with
  | nop => rw [exec_nop] at h; cases h; exact setErr_wf (by decide) hs
  | enc8 => exact encodeA_wf (by decide) hs h
  | enc7 => exact encodeA_wf (by decide) hs h
  | enc16 => exact encodeA_wf (by decide) hs h
  | dec =>
    rw [exec_dec] at h
    split_ifs at h <;> cases h
    · exact setErr_wf (by decide) hs
    · exact setErr_wf (by decide) hs
    · exact setErr_wf (by decide) (setResult_wf _ hs)
  | rev => rw [exec_rev] at h; cases h; exact setErr_wf (by decide) (emit_wf (rev_inbits_fits hs) hs)
  | movoi => rw [exec_movoi] at h; cases h; exact setErr_wf (by decide) (copyOutToIn_wf hs)
  | jrenc =>
    rw [exec_jrenc] at h
    split_ifs at h <;> cases h
    · exact setErr_wf (by decide) hs
    · exact setErr_wf (by decide) (storeToken_wf _ hs)
  | jrgen => rw [exec_jrgen] at h; cases h; exact setErr_wf (by decide) (afterDraw_wf (storeToken_wf _ hs))
  | jrdec =>
    rw [exec_jrdec] at h
    split_ifs at h <;> cases h
    · exact setErr_wf (by decide) hs
    · exact setErr_wf (by decide) (setResult_wf _ hs)
  | serhdr =>
    rw [exec_serhdr] at h
    split_ifs at h <;> cases h
    · exact setErr_wf (by decide) hs
    · exact setErr_wf (by decide) (emit_wf (headerString_fits s) hs)
  | deshdr =>
    rw [exec_deshdr] at h
    split_ifs at h <;> cases h
    · exact setErr_wf (by decide) hs
    · exact setErr_wf (by decide) (setHeader_wf _ hs)
  | serfrm =>
    rw [exec_serfrm] at h
    split_ifs at h with _ hplen <;> cases h
    · exact setErr_wf (by decide) hs
    · exact setErr_wf (by decide) hs
    · exact setErr_wf (by decide) (emit_wf (frameString_fits (Nat.not_lt.mp hplen)) hs)
  | desfrm =>
    rw [exec_desfrm] at h
    split_ifs at h <;> cases h
    · exact setErr_wf (by decide) hs
    · exact setErr_wf (by decide) hs
    · exact setErr_wf (by decide) hs
    · exact setErr_wf (by decide) (loadFrame_wf hs)
  | locate => rw [exec_locate] at h; cases h; exact setErr_wf (by decide) (setResult_wf _ hs)

theorem commandStep_wf {w : Word} {s t : State} (hs : s.Wf) (h : commandStep w s = .next t) : t.Wf := by
  obtain ⟨-, -, hstep⟩ | ⟨i, -, hstep⟩ := commandStep_cases w s
  · rw [hstep] at h; cases h; exact setErr_wf (by decide) hs
  · rw [hstep] at h; exact exec_wf hs h

theorem hostAccess_wf {op : HostOp} {s t : State} (hs : s.Wf) (h : hostAccess op s = .next t) : t.Wf := by
  obtain ⟨addr, -, rfl⟩ | ⟨addr, w, -, -, -, rfl⟩ | ⟨w, -, hcmd⟩ | ⟨-, rfl⟩ := hostAccess_cases h
  · exact logRead_wf _ hs
  · exact busWrite_wf w addr hs
  · exact commandStep_wf (setCmd_wf w hs) hcmd
  · exact blockReset_wf hs

/-- Settles O15: an idle step changes nothing, and any other step is one host access, which keeps the form. -/
theorem stepKeepsWellFormed : Obligations.StepKeepsWellFormed := by
  intro s t hs h
  obtain ⟨-, rfl⟩ | ⟨op, rest, -, haccess⟩ := step_cases h
  · exact hs
  · exact hostAccess_wf (popAccess_wf rest hs) haccess

end Sys2Proof.Machine

/-! The accesses that reach no register: an unmapped word (20_memory.md R66) and an access of another width or
unaligned (20_memory.md R65). -/

namespace Sys2Proof.Machine

/-! ## Unmapped words -/

/-- The map names no register at an aligned address that no register has. -/
theorem regAt_unmapped {n addr : Nat} (ha : addr % 4 = 0) (hun : ∀ g : Reg, g.mapped n → addr ≠ regAddr g) :
    regAt n addr = none := by
  cases h : regAt n addr with
  | none => rfl
  | some g =>
    obtain ⟨hg, haddr⟩ := regAt_sound ha h
    exact absurd haddr (hun g hg)

theorem busRead_unmapped {s : State} {addr : Nat} (ha : addr % 4 = 0)
    (hun : ∀ g : Reg, g.mapped (windowWords s) → addr ≠ regAddr g) : busRead s addr = 0 := by
  rw [busRead, regAt_unmapped ha hun]

theorem busWrite_unmapped {s : State} {addr : Nat} (w : Word) (ha : addr % 4 = 0)
    (hun : ∀ g : Reg, g.mapped (windowWords s) → addr ≠ regAddr g) : busWrite w addr s = s := by
  rw [busWrite, regAt_unmapped ha hun]

/-- The step of a defined host write at an address other than CMD's: the bus write and no command. -/
theorem step_write {s : State} {addr : Nat} {w : Word} {rest : List HostOp} (h1 : addr < 4096) (h2 : addr % 4 = 0)
    (hne : addr ≠ 0x008) (hp : s.pending = .write addr 4 w :: rest) :
    step s = .next (busWrite w addr (popAccess rest s)) := by
  rw [step_access hp, hostAccess, hostWrite_defined _ w h1 h2, if_neg hne]

/-- Settles O52: the map names no register there, and the address is not that of CMD, which every block has, so that
the write starts no command. -/
theorem unmappedWordReadsZero : Obligations.UnmappedWordReadsZero := by
  intro s addr w rest _ hlt ha hun
  have hpop : ∀ g : Reg, g.mapped (windowWords (popAccess rest s)) → addr ≠ regAddr g := hun
  have hcmd : addr ≠ 0x008 := hun .cmd trivial
  constructor <;> intro hp
  · rw [step_read hlt ha hp, busRead_unmapped ha hpop]
    rfl
  · rw [step_write hlt ha hcmd hp, busWrite_unmapped w ha hpop]
    rfl

/-! ## Undefined accesses -/

theorem accessDefined_eq_false_iff {addr n : Nat} : accessDefined addr n = false ↔ n ≠ 4 ∨ addr % 4 ≠ 0 := by
  rw [← Bool.not_eq_true, accessDefined_iff, Decidable.not_and_iff_not_or_not]

/-- Inside the bus space a read the bus does not define is refused. -/
theorem hostRead_undefined {addr n : Nat} (s : State) (hlt : addr < 4096) (hun : n ≠ 4 ∨ addr % 4 ≠ 0) :
    hostRead addr n s = .refused (.undefinedAccess addr n) := by
  simp [hostRead, inAddressSpace, hlt, accessDefined_eq_false_iff.mpr hun]

/-- Inside the bus space a write the bus does not define is refused, at CMD's address too. -/
theorem hostWrite_undefined {addr n : Nat} (s : State) (w : Word) (hlt : addr < 4096)
    (hun : n ≠ 4 ∨ addr % 4 ≠ 0) : hostWrite addr n w s = .refused (.undefinedAccess addr n) := by
  simp [hostWrite, inAddressSpace, hlt, accessDefined_eq_false_iff.mpr hun]

/-- Settles O9: the step makes the oldest access, and the bus refuses it whichever way it goes. -/
theorem undefinedAccessIsRefused : Obligations.UndefinedAccessIsRefused := by
  intro s addr n w rest hlt hun
  constructor <;> intro hp
  · exact (step_access hp).trans (hostRead_undefined _ hlt hun)
  · exact (step_access hp).trans (hostWrite_undefined _ w hlt hun)

end Sys2Proof.Machine

/-! The encoding of commands: a word is its two fields (30_encoding.md R80), the opcode map is inverse to `opcode` (R82),
and the opcodes it leaves out are R84's. -/

namespace Sys2Proof

/-! ## The two fields of a word -/

@[simp] theorem zeroField_toNat (w : Word) : (zeroField w).toNat = w.toNat / 256 := by
  have hlt := w.isLt
  simp only [zeroField, BitVec.extractLsb'_toNat, Nat.shiftRight_eq_div_pow]
  omega

@[simp] theorem opField_toNat (w : Word) : (opField w).toNat = w.toNat % 256 := by
  simp [opField]

theorem zeroField_eq_zero_iff {w : Word} : zeroField w = 0 ↔ w.toNat / 256 = 0 := by
  rw [← BitVec.toNat_inj, zeroField_toNat]
  rfl

/-- Under a zero ZERO field the OP field is the whole word. -/
theorem eq_setWidth_opField {w : Word} (h : zeroField w = 0) : w = (opField w).setWidth 32 := by
  have hhigh := zeroField_eq_zero_iff.mp h
  apply BitVec.eq_of_toNat_eq
  rw [BitVec.toNat_setWidth, opField_toNat]
  omega

/-! ## The opcode map -/

/-- The opcode map names a command only at that command's opcode. -/
theorem eq_opcode_of_instrOfOpcode {op : BitVec 8} {i : Instr} (h : instrOfOpcode op = some i) : op = opcode i := by
  apply BitVec.eq_of_toNat_eq
  unfold instrOfOpcode at h
  split at h <;> cases h <;> assumption

theorem reservedOpcode_opcode (i : Instr) : reservedOpcode (opcode i).toNat = false := by
  cases i <;> rfl

/-- R84's ranges are exactly the opcodes that the map R82 leaves out. -/
theorem instrOfOpcode_eq_none_iff {op : BitVec 8} : instrOfOpcode op = none ↔ reservedOpcode op.toNat = true := by
  constructor <;> intro h
  · -- the map's last case: `op` is none of the 15 opcodes, so it lies in a gap between them
    have hlt := op.isLt
    unfold instrOfOpcode at h
    split at h <;> cases h
    simp only [reservedOpcode, Bool.or_eq_true, Bool.and_eq_true, decide_eq_true_eq, imp_false] at *
    omega
  · refine Option.eq_none_iff_forall_ne_some.mpr fun i hi => ?_
    rw [eq_opcode_of_instrOfOpcode hi, reservedOpcode_opcode] at h
    cases h

/-! ## The decoder -/

theorem decode_of_zeroField_ne {w : Word} (h : zeroField w ≠ 0) : decode w = .error .nonzeroHighBits :=
  if_pos h

theorem decode_of_unassigned {w : Word} (hzero : zeroField w = 0) (h : instrOfOpcode (opField w) = none) :
    decode w = .error .unassignedOpcode := by
  simp [decode, hzero, h]

theorem decode_eq_ok_iff {w : Word} {i : Instr} :
    decode w = .ok i ↔ zeroField w = 0 ∧ instrOfOpcode (opField w) = some i := by
  by_cases hzero : zeroField w = 0
  · cases h : instrOfOpcode (opField w) <;> simp [decode, hzero, h]
  · simp only [decode_of_zeroField_ne hzero, hzero, false_and, reduceCtorEq]

/-- The per-command round trips, as one statement about every command. -/
theorem encodingRoundTrip (i : Instr) : Laws.EncodingRoundTrip.Statement i := by
  cases i with
  | nop => exact Laws.EncodingRoundTrip.nop
  | enc8 => exact Laws.EncodingRoundTrip.enc8
  | enc7 => exact Laws.EncodingRoundTrip.enc7
  | enc16 => exact Laws.EncodingRoundTrip.enc16
  | dec => exact Laws.EncodingRoundTrip.dec
  | rev => exact Laws.EncodingRoundTrip.rev
  | movoi => exact Laws.EncodingRoundTrip.movoi
  | jrenc => exact Laws.EncodingRoundTrip.jrenc
  | jrgen => exact Laws.EncodingRoundTrip.jrgen
  | jrdec => exact Laws.EncodingRoundTrip.jrdec
  | serhdr => exact Laws.EncodingRoundTrip.serhdr
  | deshdr => exact Laws.EncodingRoundTrip.deshdr
  | serfrm => exact Laws.EncodingRoundTrip.serfrm
  | desfrm => exact Laws.EncodingRoundTrip.desfrm
  | locate => exact Laws.EncodingRoundTrip.locate

theorem decode_encode (i : Instr) : decode (encode i) = .ok i := by
  obtain ⟨-, -, hdecode, -⟩ := encodingRoundTrip i
  exact hdecode

/-- A word that decodes is its OP field zero-extended, and that field is the command's opcode. -/
theorem eq_encode_of_decode {w : Word} {i : Instr} (h : decode w = .ok i) : w = encode i := by
  obtain ⟨hzero, hop⟩ := decode_eq_ok_iff.mp h
  rw [encode, ← eq_opcode_of_instrOfOpcode hop]
  exact eq_setWidth_opField hzero

/-- Settles O1: the two fields determine a word that decodes, and every encoding decodes to its command. -/
theorem decodeExactlyInvertsEncode : Obligations.DecodeExactlyInvertsEncode := by
  intro w i
  constructor
  · exact eq_encode_of_decode
  · rintro rfl
    exact decode_encode i

/-- R84's test of a word, read through the decoder's fields. -/
theorem legalCommandWord_iff {w : Word} :
    legalCommandWord w = true ↔ zeroField w = 0 ∧ instrOfOpcode (opField w) ≠ none := by
  rw [zeroField_eq_zero_iff, ne_eq, instrOfOpcode_eq_none_iff, opField_toNat]
  simp [legalCommandWord]

/-- Settles O2: R84's two conditions are a nonzero ZERO field and an opcode outside the map, the decoder's two
refusals. -/
theorem illegalWordsAreExactlyTheListed : Obligations.IllegalWordsAreExactlyTheListed := by
  intro w
  refine ⟨fun hhigh => ?_, fun hhigh hres => ?_, fun hlegal => ?_⟩
  · exact decode_of_zeroField_ne (mt zeroField_eq_zero_iff.mp hhigh)
  · rw [← opField_toNat] at hres
    exact decode_of_unassigned (zeroField_eq_zero_iff.mpr hhigh) (instrOfOpcode_eq_none_iff.mpr hres)
  · obtain ⟨hzero, hop⟩ := legalCommandWord_iff.mp hlegal
    obtain ⟨i, hi⟩ := Option.ne_none_iff_exists'.mp hop
    exact ⟨i, decode_eq_ok_iff.mpr ⟨hzero, hi⟩⟩

end Sys2Proof

/-! The bit-string utilities (40_bitstring.md): the encoders and DEC move numbers to strings and back, REV turns the
input around, MOVOI makes the output the next input. -/

namespace Sys2Proof.Machine

/-! ## The encoders -/

/-- The rule that R101 to R103 share, at every width: what does not fit w digits is refused, all else is emitted. -/
theorem encodeA_refuses_or_emits {w : Nat} (hw : w ≤ 160) (s : State) :
    (2 ^ w ≤ s.a.toNat → encodeA w s = .next { s with err := 2 }) ∧
    (s.a.toNat < 2 ^ w → ∃ t, encodeA w s = .next t ∧ Emitted w (fun k => s.a.getLsbD (w - 1 - k)) s t) :=
  ⟨encodeA_of_too_big, encodeA_emitted hw⟩

/-- Settles O26: ENC8 is the fixed-width encoder at 8 digits. -/
theorem enc8EmitsEightDigits : Obligations.Enc8EmitsEightDigits := by
  intro s
  obtain ⟨hbig, hfits⟩ := encodeA_refuses_or_emits (w := 8) (by decide) s
  exact ⟨hbig, fun hle => hfits (Nat.lt_succ_of_le hle)⟩

/-- Settles O27: ENC7 is the fixed-width encoder at 7 digits. -/
theorem enc7EmitsSevenDigits : Obligations.Enc7EmitsSevenDigits :=
  encodeA_refuses_or_emits (w := 7) (by decide)

/-- Settles O28: ENC16 is the fixed-width encoder at 16 digits. -/
theorem enc16EmitsSixteenDigits : Obligations.Enc16EmitsSixteenDigits := by
  intro s
  obtain ⟨hbig, hfits⟩ := encodeA_refuses_or_emits (w := 16) (by decide) s
  exact ⟨hbig, fun hle => hfits (Nat.lt_succ_of_le hle)⟩

/-- An encoder that leaves STATUS.ERR at 0 found that A fits, and emitted its digits. -/
theorem encodeA_completed {w : Nat} {s t : State} (h : encodeA w s = .next t) (herr : t.err = 0) :
    s.a.toNat < 2 ^ w ∧ t = setErr 0 (emit (bits w s.a.toNat) s) := by
  rcases Nat.lt_or_ge s.a.toNat (2 ^ w) with hfits | hbig
  · rw [encodeA_of_fits hfits] at h
    cases h
    exact ⟨hfits, rfl⟩
  · rw [encodeA_of_too_big hbig] at h
    cases h
    exact absurd herr (by simp [errCode])

/-! ## The input string as a whole -/

theorem ilen_le_ibuf_length {s : State} (h : s.Wf) : s.ilen ≤ s.ibuf.length := by
  obtain ⟨-, hibuf, -, hilen, -⟩ := h
  exact hibuf ▸ hilen

/-- Position k of the input is bit ILEN-1-k of the number that DEC reads (00_scope.md R10). -/
theorem ibuf_getElem?_eq_val_testBit {s : State} {k : Nat} (hk : k < s.ilen) (hl : s.ilen ≤ s.ibuf.length) :
    s.ibuf[k]? = some ((val (inbits s)).testBit (s.ilen - 1 - k)) := by
  have hlen := inbits_length hl
  have hbit := slice_eq_val_testBit (s := inbits s) (i := 0) (by omega) hk
  rwa [slice_whole hlen, Nat.zero_add, inbits_getElem? hk] at hbit

/-- The number that DEC reads has no bit at or above ILEN. -/
theorem val_inbits_testBit_of_ge {s : State} {j : Nat} (hj : s.ilen ≤ j) (hl : s.ilen ≤ s.ibuf.length) :
    (val (inbits s)).testBit j = false := by
  rw [val_testBit, inbits_length hl, decide_eq_false (Nat.not_lt.mpr hj), Bool.false_and]

/-- Position k of the reversed input is position ILEN-1-k of the input (00_scope.md R10). -/
theorem rev_inbits_getElem? {s : State} {k : Nat} (hk : k < s.ilen) (hl : s.ilen ≤ s.ibuf.length) :
    (rev (inbits s))[k]? = some (s.ibuf.getD (s.ilen - 1 - k) false) := by
  have hlen := inbits_length hl
  have hmirror : s.ilen - 1 - k < s.ilen := by omega
  rw [rev, List.getElem?_reverse (by omega), hlen, inbits_getElem? hmirror, List.getD_eq_getElem?_getD,
    bitAt_eq hmirror hl, Option.getD_some]

/-- What MOVOI makes of an emitted string: it is the next command's input string. -/
@[simp] theorem inbits_copyOutToIn_setErr_emit (c : BitVec 4) (str : BitString) (s : State) :
    inbits (copyOutToIn (setErr c (emit str s))) = str := by
  simp [inbits, padTo]

/-! ## DEC, REV and MOVOI -/

/-- DEC of 1 to 32 bits completes with their number in R. -/
theorem exec_dec_of_length {s : State} (hpos : 0 < s.ilen) (hle : s.ilen ≤ 32) :
    exec .dec s = .next (setErr 0 (setResult (BitVec.ofNat 32 (val (inbits s))) s)) := by
  rw [exec_dec, if_neg (by omega), if_neg (by omega)]

/-- Settles O29: the length decides the outcome; at 1 to 32 bits the bits of R are those of the number read. -/
theorem decReadsTheInputValue : Obligations.DecReadsTheInputValue := by
  intro s hs
  have hl := ilen_le_ibuf_length hs
  refine ⟨fun hzero => ?_, fun hlong => ?_, fun hpos hle => ?_⟩
  · rw [exec_dec, if_pos hzero]
    rfl
  · rw [exec_dec, if_neg (by omega), if_pos hlong]
    rfl
  · refine ⟨_, exec_dec_of_length hpos hle, rfl, fun k hk => ?_, fun j hj => ?_⟩
    · have hbit : s.ilen - 1 - k < 32 := by omega
      rw [setErr_r, setResult_r, BitVec.getLsbD_ofNat, decide_eq_true hbit, Bool.true_and]
      exact ibuf_getElem?_eq_val_testBit hk hl
    · rw [setErr_r, setResult_r, BitVec.getLsbD_ofNat, val_inbits_testBit_of_ge hj hl, Bool.and_false]

/-- Settles O30: REV emits a string of ILEN bits, which fits the buffer at every length. -/
theorem revEmitsTheReversedInput : Obligations.RevEmitsTheReversedInput := by
  intro s hs
  have hl := ilen_le_ibuf_length hs
  have hlen : (rev (inbits s)).length = s.ilen := (List.length_reverse ..).trans (inbits_length hl)
  exact ⟨_, exec_rev s, emit_emitted hlen (fun k hk => rev_inbits_getElem? hk hl) (hlen ▸ rev_inbits_fits hs)⟩

/-- Settles O31: MOVOI is the copy alone; a well-formed OBUF is 0 from OLEN on, here from position 0. -/
theorem movoiCopiesTheOutput : Obligations.MovoiCopiesTheOutput := by
  refine fun s => ⟨exec_movoi s, fun hs hempty => ?_⟩
  obtain ⟨-, -, -, -, -, hzero, -⟩ := hs
  rwa [hempty, List.drop_zero, Nat.sub_zero, capacity_eq, zeros] at hzero

/-! ## Encoding and reading back -/

/-- Of every encoder whose digits DEC accepts: MOVOI and DEC put the encoded number into R. -/
theorem dec_movoi_encodeA {w : Nat} {s t : State} (hpos : 0 < w) (hle : w ≤ 32) (h : encodeA w s = .next t)
    (herr : t.err = 0) :
    ∃ u v, exec .movoi t = .next u ∧ exec .dec u = .next v ∧ v.err = 0 ∧ v.r = s.a := by
  obtain ⟨hfits, rfl⟩ := encodeA_completed h herr
  refine ⟨_, _, exec_movoi _, exec_dec_of_length (by simpa using hpos) (by simpa using hle), rfl, ?_⟩
  rw [setErr_r, setResult_r, inbits_setErr, inbits_copyOutToIn_setErr_emit, val_bits, Nat.mod_eq_of_lt hfits,
    BitVec.ofNat_toNat, BitVec.setWidth_eq]

/-- Settles O33: each of the three encoders is the fixed-width encoder at a width that DEC accepts. -/
theorem decReadsBackTheEncodedValue : Obligations.DecReadsBackTheEncodedValue := by
  rintro i s t (rfl | rfl | rfl) h herr
  · exact dec_movoi_encodeA (w := 8) (by decide) (by decide) h herr
  · exact dec_movoi_encodeA (w := 7) (by decide) (by decide) h herr
  · exact dec_movoi_encodeA (w := 16) (by decide) (by decide) h herr

end Sys2Proof.Machine

/-! The JRB byte (41_phy_codec.md R120 to R125): a token is v above the parities of its halves, so both of its groups
have even weight; flipping bits changes a group's parity by the parity of the flips, and JRDEC reports it. -/

namespace Sys2Proof.Machine

/-! ## The bits of a token -/

theorem parity3_extractLsb' {n : Nat} (x : BitVec n) (i : Nat) :
    parity3 (x.extractLsb' i 3) = (x.getLsbD (i + 2) ^^ x.getLsbD (i + 1) ^^ x.getLsbD i) := by
  simp [parity3]

/-- R120's sum as bits: the parities of v's halves stand below v. -/
theorem jr_eq_concat (v : BitVec 6) :
    jr v = (v.concat (parity3 (v.extractLsb' 3 3))).concat (parity3 (v.extractLsb' 0 3)) := by
  have hlt := ((v.concat (parity3 (v.extractLsb' 3 3))).concat (parity3 (v.extractLsb' 0 3))).isLt
  apply BitVec.eq_of_toNat_eq
  simp only [BitVec.toNat_concat] at hlt ⊢
  rw [jr, BitVec.toNat_ofNat, Nat.mod_eq_of_lt (by omega)]
  omega

theorem jr_toNat (v : BitVec 6) :
    (jr v).toNat = 4 * v.toNat + 2 * (v.getLsbD 5 ^^ v.getLsbD 4 ^^ v.getLsbD 3).toNat +
      (v.getLsbD 2 ^^ v.getLsbD 1 ^^ v.getLsbD 0).toNat := by
  simp only [jr_eq_concat, BitVec.toNat_concat, parity3_extractLsb', Nat.reduceAdd]
  omega

theorem jr_getLsbD_add_two (v : BitVec 6) (k : Nat) : (jr v).getLsbD (k + 2) = v.getLsbD k := by
  rw [jr_eq_concat, BitVec.getLsbD_concat_succ, BitVec.getLsbD_concat_succ]

theorem jr_getLsbD_one (v : BitVec 6) : (jr v).getLsbD 1 = (v.getLsbD 5 ^^ v.getLsbD 4 ^^ v.getLsbD 3) := by
  rw [jr_eq_concat, BitVec.getLsbD_concat_succ, BitVec.getLsbD_concat_zero, parity3_extractLsb']

theorem jr_getLsbD_zero (v : BitVec 6) : (jr v).getLsbD 0 = (v.getLsbD 2 ^^ v.getLsbD 1 ^^ v.getLsbD 0) := by
  rw [jr_eq_concat, BitVec.getLsbD_concat_zero, parity3_extractLsb']

/-- Bits 7:2 of a token are the value it was made of. -/
@[simp] theorem jr_extractLsb' (v : BitVec 6) : (jr v).extractLsb' 2 6 = v := by
  ext k hk
  rw [BitVec.getElem_extractLsb', Nat.add_comm, jr_getLsbD_add_two, BitVec.getLsbD_eq_getElem hk]

/-- The 8 bits of a byte on air, first to last (00_scope.md R10). -/
theorem bits_eight (b : BitVec 8) :
    bits 8 b.toNat = [b.getLsbD 7, b.getLsbD 6, b.getLsbD 5, b.getLsbD 4, b.getLsbD 3, b.getLsbD 2, b.getLsbD 1,
      b.getLsbD 0] := rfl

/-! ## The two groups of a byte -/

/-- The parity of a byte's high group: its bits 7:5 and their parity bit, bit 1 (41_phy_codec.md R123). -/
def highGroupParity (b : BitVec 8) : Bool := b.getLsbD 7 ^^ b.getLsbD 6 ^^ b.getLsbD 5 ^^ b.getLsbD 1

/-- The parity of a byte's low group: its bits 4:2 and their parity bit, bit 0 (41_phy_codec.md R123). -/
def lowGroupParity (b : BitVec 8) : Bool := b.getLsbD 4 ^^ b.getLsbD 3 ^^ b.getLsbD 2 ^^ b.getLsbD 0

theorem highGroupParity_xor (b m : BitVec 8) :
    highGroupParity (b ^^^ m) = (highGroupParity b ^^ highGroupParity m) := by
  simp only [highGroupParity, BitVec.getLsbD_xor, Bool.xor_assoc, Bool.xor_left_comm]

theorem lowGroupParity_xor (b m : BitVec 8) :
    lowGroupParity (b ^^^ m) = (lowGroupParity b ^^ lowGroupParity m) := by
  simp only [lowGroupParity, BitVec.getLsbD_xor, Bool.xor_assoc, Bool.xor_left_comm]

@[simp] theorem highGroupParity_jr (v : BitVec 6) : highGroupParity (jr v) = false := by
  rw [highGroupParity, jr_getLsbD_add_two v 5, jr_getLsbD_add_two v 4, jr_getLsbD_add_two v 3, jr_getLsbD_one,
    Bool.xor_self]

@[simp] theorem lowGroupParity_jr (v : BitVec 6) : lowGroupParity (jr v) = false := by
  rw [lowGroupParity, jr_getLsbD_add_two v 2, jr_getLsbD_add_two v 1, jr_getLsbD_add_two v 0, jr_getLsbD_zero,
    Bool.xor_self]

theorem jrcheck_fst (b : BitVec 8) :
    (jrcheck b).1 = (b.getLsbD 1 == (b.getLsbD 7 ^^ b.getLsbD 6 ^^ b.getLsbD 5)) :=
  congrArg (b.getLsbD 1 == ·) (parity3_extractLsb' b 5)

theorem jrcheck_snd (b : BitVec 8) :
    (jrcheck b).2 = (b.getLsbD 0 == (b.getLsbD 4 ^^ b.getLsbD 3 ^^ b.getLsbD 2)) :=
  congrArg (b.getLsbD 0 == ·) (parity3_extractLsb' b 2)

/-- A bit is the parity of three others exactly when the four have even weight. -/
theorem beq_xor_eq_not_xor (p x y z : Bool) : (p == (x ^^ y ^^ z)) = !(x ^^ y ^^ z ^^ p) := by
  decide +revert

/-- The verdicts of `jrcheck` are the groups' even weights. -/
theorem jrcheck_eq_not_parity (b : BitVec 8) : jrcheck b = (!highGroupParity b, !lowGroupParity b) := by
  apply Prod.ext
  · rw [jrcheck_fst, beq_xor_eq_not_xor, highGroupParity]
  · rw [jrcheck_snd, beq_xor_eq_not_xor, lowGroupParity]

theorem jrcheck_jr (v : BitVec 6) : jrcheck (jr v) = (true, true) := by
  simp [jrcheck_eq_not_parity]

/-- The verdicts on a token with the bits of m flipped depend on m alone. -/
theorem jrcheck_jr_xor (v : BitVec 6) (m : BitVec 8) :
    jrcheck (jr v ^^^ m) = (!highGroupParity m, !lowGroupParity m) := by
  simp [jrcheck_eq_not_parity, highGroupParity_xor, lowGroupParity_xor]

/-! ## JRDEC's result -/

/-- R125's sum as bits: the verdicts stand above b[7:2], with two zero bits between. -/
theorem jrdecResult_eq_append (b : BitVec 8) :
    jrdecResult b = (((BitVec.ofBool (jrcheck b).2).concat (jrcheck b).1 ++
      (b.extractLsb' 2 6).setWidth 8 : BitVec (1 + 1 + 8))).setWidth 32 := by
  have hlow : (b.extractLsb' 2 6).toNat < 2 ^ 8 := by omega
  apply BitVec.eq_of_toNat_eq
  rw [jrdecResult, BitVec.toNat_ofNat, BitVec.toNat_setWidth, BitVec.toNat_append, BitVec.toNat_concat,
    BitVec.toNat_ofBool, BitVec.toNat_setWidth_of_le (by decide), ← Nat.shiftLeft_add_eq_or_of_lt hlow,
    Nat.shiftLeft_eq]
  omega

theorem jrdecResult_getLsbD (b : BitVec 8) (k : Nat) :
    (jrdecResult b).getLsbD k =
      if k < 6 then b.getLsbD (k + 2) else if k < 8 then false
      else if k = 8 then (jrcheck b).1 else decide (k = 9) && (jrcheck b).2 := by
  rw [jrdecResult_eq_append, BitVec.getLsbD_setWidth, BitVec.getLsbD_append, BitVec.getLsbD_setWidth,
    BitVec.getLsbD_extractLsb', BitVec.getLsbD_concat, BitVec.getLsbD_ofBool]
  by_cases hlow : k < 8
  · have h32 : k < 32 := by omega
    by_cases hvalue : k < 6 <;> simp [hlow, hvalue, h32, Nat.add_comm]
  · obtain rfl | rfl | hhigh : k = 8 ∨ k = 9 ∨ 9 < k := by omega
    · rfl
    · rfl
    · have hpast : ¬ k < 6 ∧ k ≠ 8 ∧ k ≠ 9 ∧ k - 8 ≠ 0 ∧ k - 8 - 1 ≠ 0 := by omega
      simp [hlow, hpast]

theorem jrdecResult_jr_toNat (v : BitVec 6) : (jrdecResult (jr v)).toNat = 0x300 + v.toNat := by
  have hv := v.isLt
  simp only [jrdecResult, jrcheck_jr, jr_extractLsb', BitVec.toNat_ofNat, Bool.toNat_true]
  omega

/-! ## JRENC, JRGEN and JRDEC -/

theorem storeToken_hJrb (v : BitVec 6) (s : State) : (storeToken v s).hJrb = jr v := rfl

theorem exec_jrenc_of_fits {s : State} (h : s.a.toNat ≤ 63) :
    exec .jrenc s = .next (setErr 0 (storeToken (s.a.setWidth 6) s)) := by
  rw [exec_jrenc, if_neg (Nat.not_lt.mpr h), BitVec.ofNat_toNat]

theorem exec_jrdec_of_fits {s : State} (h : s.a.toNat ≤ 255) :
    exec .jrdec s = .next (setErr 0 (setResult (jrdecResult (s.a.setWidth 8)) s)) := by
  rw [exec_jrdec, if_neg (Nat.not_lt.mpr h), BitVec.ofNat_toNat]

/-- A that holds a byte is decoded as that byte. -/
theorem exec_jrdec_of_byte {s : State} {b : BitVec 8} (h : s.a = b.setWidth 32) :
    exec .jrdec s = .next (setErr 0 (setResult (jrdecResult b) s)) := by
  have hb := b.isLt
  rw [exec_jrdec_of_fits (by rw [h, BitVec.toNat_setWidth_of_le (by decide)]; omega), h,
    BitVec.setWidth_setWidth_of_le _ (by decide), BitVec.setWidth_eq]

/-- Settles O35: the token of A's six low bits, and below 64 those bits are all of A. -/
theorem jrencStoresTheTokenOfA : Obligations.JrencStoresTheTokenOfA := by
  refine fun s => ⟨fun hbig => ?_, fun hle => ?_⟩
  · rw [exec_jrenc, if_pos hbig]
    rfl
  · refine ⟨_, exec_jrenc_of_fits hle, rfl, rfl, ?_⟩
    have hvalue : (s.a.setWidth 6).toNat = s.a.toNat := by rw [BitVec.toNat_setWidth]; omega
    rw [setErr_hJrb, storeToken_hJrb, jr_toNat, hvalue]
    simp

/-- Settles O36: a draw has six bits, so JRENC accepts it as A. -/
theorem jrgenStoresTheTokenOfTheDraw : Obligations.JrgenStoresTheTokenOfTheDraw := by
  intro s
  refine ⟨Config.rnd6 s.draws, _, rfl, exec_jrgen s, rfl, ?_⟩
  have hdraw := (Config.rnd6 s.draws).isLt
  rw [exec_jrenc_of_fits (by simp; omega), BitVec.setWidth_setWidth_of_le _ (by decide), BitVec.setWidth_eq]
  rfl

/-- Settles O37: the bits of R are those of JRDEC's result on A's low byte. -/
theorem jrdecReportsBothVerdicts : Obligations.JrdecReportsBothVerdicts := by
  refine fun s => ⟨fun hbig => ?_, fun hle => ?_⟩
  · rw [exec_jrdec, if_pos hbig]
    rfl
  · refine ⟨_, exec_jrdec_of_fits hle, rfl, fun k hk => ?_, ?_, ?_, ?_, ?_, fun k hk => ?_⟩
    all_goals rw [setErr_r, setResult_r, jrdecResult_getLsbD]
    · rw [if_pos hk]
      rw [BitVec.getLsbD_setWidth, decide_eq_true (by omega), Bool.true_and]
    · rfl
    · rfl
    · simp [jrcheck_fst]
    · simp [jrcheck_snd]
    · rw [if_neg (by omega), if_neg (by omega), if_neg (by omega), decide_eq_false (by omega), Bool.false_and]

/-- Settles O39: a token's groups are even, so a verdict on the flipped token is the even weight of the flips. -/
theorem jrdecDetectsOddErrorsPerGroup : Obligations.JrdecDetectsOddErrorsPerGroup := by
  intro s v m ha
  refine ⟨_, exec_jrdec_of_byte ha, rfl, ?_, ?_⟩ <;>
    rw [setErr_r, setResult_r, jrdecResult_getLsbD, jrcheck_jr_xor]
  · rfl
  · rfl

/-- Settles O40: JRENC completed, so A fits six bits, and the token it left holds A and passes both checks. -/
theorem jrdecReadsBackTheToken : Obligations.JrdecReadsBackTheToken := by
  intro s t h herr
  rw [exec_jrenc] at h
  split_ifs at h with hbig <;> cases h
  · exact absurd herr (by simp)
  · refine ⟨_, exec_jrdec_of_byte rfl, rfl, ?_⟩
    rw [setErr_r, setResult_r, jrdecResult_jr_toNat, BitVec.toNat_ofNat, Nat.mod_eq_of_lt (by omega)]

/-- Settles O34: the layout of the token, with both groups even by the parity bits' definition. -/
theorem jrByteHasTheParityLayout : Obligations.JrByteHasTheParityLayout := by
  intro v
  refine ⟨jr_extractLsb' v, jr_getLsbD_one v, jr_getLsbD_zero v, highGroupParity_jr v, lowGroupParity_jr v, ?_⟩
  rw [bits_eight, jr_getLsbD_one, jr_getLsbD_zero]
  simp only [jr_getLsbD_add_two v 5, jr_getLsbD_add_two v 4, jr_getLsbD_add_two v 3, jr_getLsbD_add_two v 2,
    jr_getLsbD_add_two v 1, jr_getLsbD_add_two v 0]

/-- Settles O38: the verdicts compare each parity bit with its half, and a token's parity bits are those parities. -/
theorem jrcheckAcceptsEveryToken : Obligations.JrcheckAcceptsEveryToken := by
  refine ⟨fun b => ⟨?_, ?_⟩, jrcheck_jr⟩
  · rw [jrcheck_fst, beq_iff_eq]
  · rw [jrcheck_snd, beq_iff_eq]

end Sys2Proof.Machine

/-! The PHY header (41_phy_codec.md R126 to R130): SERHDR emits the header string, DESHDR reads the fields back. -/

namespace Sys2Proof.Machine

theorem exec_serhdr_of_fits {s : State} (h : s.hPhr.toNat < 128) :
    exec .serhdr s = .next (setErr 0 (emit (headerString s) s)) := by
  rw [exec_serhdr, if_neg (Nat.not_le.mpr h)]

theorem exec_deshdr_of_length {s : State} (h : hdrw s ≤ s.ilen) :
    exec .deshdr s = .next (setErr 0 (setHeader (inputHeader s) s)) := by
  rw [exec_deshdr, if_neg (Nat.not_lt.mpr h)]

/-- Settles O41: the string emitted is R126's position table, and it fits every buffer. -/
theorem serhdrEmitsTheHeader : Obligations.SerhdrEmitsTheHeader := by
  refine fun s => ⟨fun hbig => ?_, fun hlt => ⟨_, exec_serhdr_of_fits hlt, ?_⟩⟩
  · rw [exec_serhdr, if_pos hbig]
    rfl
  · exact emit_emitted (headerString_length s) (fun _ hk => headerString_getElem? hk)
      ((headerString_length s).ge.trans (headerString_fits s))

/-- Settles O42: an input as long as the header holds every field that DESHDR takes. -/
theorem deshdrLoadsTheHeader : Obligations.DeshdrLoadsTheHeader := by
  refine fun s hs => ⟨fun hshort => ?_, fun hlong => ⟨_, exec_deshdr_of_length hlong, rfl, ?_, rfl⟩⟩
  · rw [exec_deshdr, hdrw_eq, if_pos hshort]
    rfl
  · exact inputHeader_loaded hlong (ilen_le_ibuf_length hs) rfl rfl rfl rfl rfl

/-- The header fields that an input string made of the header string gives back (41_phy_codec.md R130). -/
theorem hfields_headerString {s : State} (h : s.hPhr.toNat < 128) :
    hfields s.jrEn s.jrEarly (headerString s) =
      { pre := 0, sfd := s.hSfd, jrb := if s.jrEn then s.hJrb else 0, phr := s.hPhr, rsv := false } := by
  have hread := hfields_hdr s.jrEn s.jrEarly s.hSfd s.hJrb s.hPhr [] h
  rwa [List.append_nil] at hread

/-- Settles O43: MOVOI makes the header string the whole input, whose length DESHDR accepts. -/
theorem headerRoundTrip : Obligations.HeaderRoundTrip := by
  intro s hphr
  refine ⟨_, _, _, exec_serhdr_of_fits hphr, exec_movoi _, exec_deshdr_of_length ?_, ?_⟩
  · exact (headerString_length s).ge
  · -- DESHDR reads under the CFG of SERHDR, which neither command changed
    have hinput : inputHeader (setErr 0 (copyOutToIn (setErr 0 (emit (headerString s) s)))) =
        hfields s.jrEn s.jrEarly (headerString s) := by
      simp [inputHeader]
    rw [hinput, hfields_headerString hphr]
    rfl

end Sys2Proof.Machine

/-! The full frame (42_frame.md R140 to R144): SERFRM emits the frame string, DESFRM splits its input by length alone,
and on a frame string that split gives the fields back. -/

namespace Sys2Proof.Machine

/-! ## SERFRM -/

theorem exec_serfrm_of_refused {s : State} (h : s.hPhr.toNat ≥ 128 ∨ s.plen.toNat > s.maxPayload) :
    exec .serfrm s = .next (setErr 2 s) := by
  rw [exec_serfrm]
  obtain hphr | hplen := h
  · rw [if_pos hphr]
  · rw [if_pos hplen, ite_self]

theorem exec_serfrm_of_fits {s : State} (hphr : s.hPhr.toNat < 128) (hplen : s.plen.toNat ≤ s.maxPayload) :
    exec .serfrm s = .next (setErr 0 (emit (frameString s) s)) := by
  rw [exec_serfrm, if_neg (Nat.not_le.mpr hphr), if_neg (Nat.not_lt.mpr hplen)]

/-- Settles O44: the string emitted is R140's position table, and the PLEN check makes it fit the buffer, which the
longest frame fills. -/
theorem serfrmEmitsTheFrame : Obligations.SerfrmEmitsTheFrame := by
  refine fun s => ⟨exec_serfrm_of_refused, fun hphr hplen => ⟨_, exec_serfrm_of_fits hphr hplen, ?_, ?_⟩⟩
  · exact emit_emitted (frameString_length s) (fun _ hk => frameString_getElem? hk)
      ((frameString_length s).ge.trans (frameString_fits hplen))
  · intro hjr hfull
    rw [setErr_olen, emit_olen, frameString_length, frameLength, hdrw_eq, if_pos hjr, hfull]

/-! ## DESFRM -/

/-- An input that passes both FormatError checks of R142 is a header, 104 bits and whole payload bytes. -/
theorem exists_payload_of_ilen {s : State} (hoctets : s.ilen % 8 = 0) (hlong : hdrw s + 104 ≤ s.ilen) :
    ∃ n, s.ilen = hdrw s + 104 + 8 * n := by
  have hwidth := hdrw_cases s
  exact ⟨(s.ilen - hdrw s - 104) / 8, by omega⟩

theorem payloadCount_of_length {s : State} {n : Nat} (hlen : s.ilen = hdrw s + 104 + 8 * n) :
    payloadCount s = n := by
  rw [payloadCount]
  omega

theorem exec_desfrm_of_malformed {s : State} (h : s.ilen % 8 ≠ 0 ∨ s.ilen < hdrw s + 104) :
    exec .desfrm s = .next (setErr 1 s) := by
  rw [exec_desfrm]
  obtain hoctets | hshort := h
  · rw [if_pos hoctets]
  · rw [if_pos hshort, ite_self]

/-- On an input with n payload bytes only the check against MAX_PAYLOAD is left. -/
theorem exec_desfrm_of_length {s : State} {n : Nat} (hlen : s.ilen = hdrw s + 104 + 8 * n) :
    exec .desfrm s = if s.maxPayload < n then .next (setErr 2 s) else .next (setErr 0 (loadFrame s)) := by
  have hwidth := hdrw_cases s
  rw [exec_desfrm, if_neg (by omega), if_neg (by omega), payloadCount_of_length hlen]

/-- MAX_PAYLOAD is legal, so that PLEN holds every payload count that DESFRM accepts (00_scope.md R6). -/
theorem loadFrame_plen_toNat {s : State} {n : Nat} (hs : s.Wf) (hlen : s.ilen = hdrw s + 104 + 8 * n)
    (hn : n ≤ s.maxPayload) : (loadFrame s).plen.toNat = n := by
  obtain ⟨hmax, -⟩ := hs
  have hbound : n < 2 ^ 8 := by rw [Config.maxPayloadBound] at hmax; omega
  rw [loadFrame, setTrailer_plen, payloadCount_of_length hlen, BitVec.toNat_ofNat, Nat.mod_eq_of_lt hbound]

/-- Settles O45: the length decides the outcome, and an accepted input holds every field that DESFRM takes. -/
theorem desfrmLoadsTheFrame : Obligations.DesfrmLoadsTheFrame := by
  intro s hs
  have hl := ilen_le_ibuf_length hs
  refine ⟨fun hoctets => exec_desfrm_of_malformed (.inl hoctets),
    fun hshort => exec_desfrm_of_malformed (.inr hshort), fun hoctets hbig => ?_, fun hoctets hlong hfits => ?_⟩
  · obtain ⟨n, hlen⟩ := exists_payload_of_ilen hoctets (by omega)
    rw [exec_desfrm_of_length hlen, if_pos (by omega)]
    rfl
  · obtain ⟨n, hlen⟩ := exists_payload_of_ilen hoctets hlong
    have hn : n ≤ s.maxPayload := by omega
    refine ⟨_, (exec_desfrm_of_length hlen).trans (if_neg (Nat.not_lt.mpr hn)), rfl, ?_, ?_, ?_, ?_, rfl⟩
    · exact inputHeader_loaded (by omega) hl rfl rfl rfl rfl rfl
    · exact fieldAt_val_slice (by omega) hl
    · rw [setErr_plen, loadFrame_plen_toNat hs hlen hn, hlen]
    · exact fieldAt_val_slice (by omega) hl

/-! ## Reading a frame string back -/

theorem hfields_frameString {s : State} (h : s.hPhr.toNat < 128) :
    hfields s.jrEn s.jrEarly (frameString s) =
      { pre := 0, sfd := s.hSfd, jrb := if s.jrEn then s.hJrb else 0, phr := s.hPhr, rsv := false } := by
  rw [frameString, List.append_assoc, List.append_assoc]
  exact hfields_hdr s.jrEn s.jrEarly s.hSfd s.hJrb s.hPhr _ h

/-- The 88 bits after the header are the MAC string (42_frame.md R140). -/
theorem slice_frameString_mac (s : State) : slice (frameString s) (hdrw s) 88 = macString s := by
  rw [frameString, List.append_assoc, List.append_assoc, slice_append_right (headerString_length s).le,
    headerString_length, Nat.sub_self, slice_prefix (macString_length s)]

/-- The last 16 bits are the FCS (42_frame.md R140). -/
theorem slice_frameString_fcs (s : State) :
    slice (frameString s) (frameLength s - 16) 16 = bits 16 s.fcs.toNat := by
  have hbefore : (headerString s ++ macString s ++ zeros (8 * s.plen.toNat)).length = frameLength s - 16 := by
    simp only [List.length_append, headerString_length, macString_length, zeros_length, frameLength]
    omega
  rw [frameString, slice_append_right hbefore.le, hbefore, Nat.sub_self, slice_whole (bits_length _ _)]

/-- A state u whose input is the frame string of s, under the same CFG, takes the fields of s from it. -/
theorem loadFrame_of_frameString {s u : State} (hphr : s.hPhr.toNat < 128) (hin : inbits u = frameString s)
    (hlen : u.ilen = frameLength s) (hen : u.jrEn = s.jrEn) (hearly : u.jrEarly = s.jrEarly) :
    loadFrame u = setTrailer s.mac s.plen s.fcs
      (setHeader { pre := 0, sfd := s.hSfd, jrb := if s.jrEn then s.hJrb else 0, phr := s.hPhr, rsv := false } u) := by
  have hwidth : hdrw u = hdrw s := by rw [hdrw_eq, hdrw_eq, hen]
  have hcount : payloadCount u = s.plen.toNat := payloadCount_of_length (by rw [hlen, hwidth, frameLength])
  rw [loadFrame, inputHeader, hen, hearly, hin, hlen, hwidth, hcount, hfields_frameString hphr,
    slice_frameString_mac, slice_frameString_fcs, macString, ofNat_val_bits, ofNat_val_bits, BitVec.ofNat_toNat,
    BitVec.setWidth_eq]

/-- Settles O46: MOVOI makes the frame string the whole input, whose length DESFRM accepts with PLEN as its count. -/
theorem frameRoundTrip : Obligations.FrameRoundTrip := by
  intro s hphr hplen
  refine ⟨_, _, _, exec_serfrm_of_fits hphr hplen, exec_movoi _,
    (exec_desfrm_of_length (frameString_length s)).trans (if_neg (Nat.not_lt.mpr hplen)), ?_⟩
  have hin : inbits (setErr 0 (copyOutToIn (setErr 0 (emit (frameString s) s)))) = frameString s := by
    rw [inbits_setErr, inbits_copyOutToIn_setErr_emit]
  rw [loadFrame_of_frameString hphr hin (frameString_length s) rfl rfl]
  rfl

end Sys2Proof.Machine

/-! The field locator (43_locator.md R160 to R163): the ladder's ranges are R163's table, and its regions are where
SERFRM places the MAC string and the payload. -/

namespace Sys2Proof.Machine

/-! ## The ladder and R163's table -/

/-- R161 accumulates exactly R163's ranges; the late layout lists its rows by position, R163 by code. -/
theorem spans_subset_absoluteRanges (en early : Bool) :
    spans 0 ([(0, 32), (1, 8)] ++ phrRows en early ++ macRows) ⊆ absoluteRanges en early := by
  cases en <;> cases early <;> decide

theorem locateField_in_absoluteRanges (en early : Bool) {o : Nat} (ho : o < 2 ^ 32) :
    ∃ row ∈ absoluteRanges en early, row.2.1 ≤ o ∧ o ≤ row.2.2 ∧ locateField en early o = row.1 := by
  obtain ⟨row, hrow, hfirst, hlast, hcode⟩ := climb_in_span (start := 0) (by rwa [Nat.zero_add])
  rw [Nat.zero_add] at hfirst hlast
  exact ⟨row, spans_subset_absoluteRanges en early hrow, hfirst, hlast, hcode⟩

/-- R163's table read by regions: the header codes end at the header width, the MAC codes fill the 88 offsets after
it, and code 19 has the rest. -/
theorem absoluteRanges_region (s : State) :
    ∀ row ∈ absoluteRanges s.jrEn s.jrEarly,
      (row.1 < 4 ∧ row.2.2 < hdrw s) ∨
      ((4 ≤ row.1 ∧ row.1 ≤ 18) ∧ hdrw s ≤ row.2.1 ∧ row.2.2 < hdrw s + 88) ∨
      (row.1 = 19 ∧ hdrw s + 88 ≤ row.2.1) := by
  rw [hdrw_eq]
  cases s.jrEn <;> cases s.jrEarly <;> decide

/-- The region of the offset decides the region of the code. -/
theorem locateField_region (s : State) {o : Nat} (ho : o < 2 ^ 32) :
    (locateField s.jrEn s.jrEarly o < 4 ∧ o < hdrw s) ∨
    ((4 ≤ locateField s.jrEn s.jrEarly o ∧ locateField s.jrEn s.jrEarly o ≤ 18) ∧
      hdrw s ≤ o ∧ o < hdrw s + 88) ∨
    (locateField s.jrEn s.jrEarly o = 19 ∧ hdrw s + 88 ≤ o) := by
  obtain ⟨row, hrow, hfirst, hlast, hcode⟩ := locateField_in_absoluteRanges s.jrEn s.jrEarly ho
  have hregion := absoluteRanges_region s row hrow
  omega

/-! ## LOCATE -/

/-- No code is lost in R: the largest is 19. -/
theorem locateResult_toNat (s : State) :
    (BitVec.ofNat 32 (locateField s.jrEn s.jrEarly s.a.toNat)).toNat =
      locateField s.jrEn s.jrEarly s.a.toNat := by
  have hregion := locateField_region s s.a.isLt
  rw [BitVec.toNat_ofNat, Nat.mod_eq_of_lt (by omega)]

/-- Settles O48: A is below 2^32, so the ladder's code is that of a range of R163 that holds A. -/
theorem locateReturnsTheRangeOfTheOffset : Obligations.LocateReturnsTheRangeOfTheOffset := by
  intro s
  obtain ⟨row, hrow, hfirst, hlast, hcode⟩ := locateField_in_absoluteRanges s.jrEn s.jrEarly s.a.isLt
  refine ⟨_, row, exec_locate s, rfl, hrow, hfirst, hlast, ?_⟩
  rw [setErr_r, setResult_r, locateResult_toNat, hcode]

/-! ## The MAC string and the payload in the frame -/

theorem frameBit_mac (s : State) {j : Nat} (hj : j < 88) : frameBit s (hdrw s + j) = s.mac.getLsbD (87 - j) := by
  rw [frameBit, if_neg (by omega), if_pos (by omega)]
  congr 1
  omega

theorem frameBit_payload (s : State) {j : Nat} (hj : j < 8 * s.plen.toNat) :
    frameBit s (hdrw s + 88 + j) = false := by
  rw [frameBit, if_neg (by omega), if_neg (by omega), if_pos (by omega)]

/-- Settles O49: both commands divide the offsets at the header width and 88 positions after it. -/
theorem locatorAgreesWithTheSerializer : Obligations.LocatorAgreesWithTheSerializer := by
  intro s t u hphr hplen hlocate hserfrm
  rw [exec_locate] at hlocate
  cases hlocate
  obtain ⟨u', hserfrm', ⟨-, -, -, hframe, -, -⟩, -⟩ := (serfrmEmitsTheFrame s).2 hphr hplen
  rw [hserfrm] at hserfrm'
  cases hserfrm'
  rw [← hdrw_eq] at hframe
  rw [setErr_r, setResult_r, locateResult_toNat]
  have hregion := locateField_region s s.a.isLt
  refine ⟨⟨fun hmac => ⟨s.a.toNat - hdrw s, by omega, by omega⟩, ?_⟩, by omega, fun j hj => ?_, fun j hj => ?_⟩
  · rintro ⟨j, hj, hoffset⟩
    omega
  · rw [hframe _ (by omega), frameBit_mac s hj]
  · rw [hframe _ (by omega), frameBit_payload s hj]

end Sys2Proof.Machine

/-! Control (44_control.md): NOP, and the illegal command word, which the step of a write to CMD answers with
IllegalCommand. -/

namespace Sys2Proof.Machine

/-- Settles O25: the encoding of NOP is the zero word, and NOP completes without a write. -/
theorem nopOnlyClearsErr : Obligations.NopOnlyClearsErr :=
  ⟨decode_encode .nop, exec_nop⟩

/-! ## The step of a write to CMD -/

/-- The pending write of a word to CMD: the access leaves the schedule, CMD takes the word, and the command step
follows (30_encoding.md R81). -/
theorem step_commandWrite {s : State} {w : Word} {rest : List HostOp} (hp : s.pending = .write 0x008 4 w :: rest) :
    step s = commandStep w (setCmd w (popAccess rest s)) :=
  (step_access hp).trans (hostWrite_cmd _ w)

/-- R84's two ways to be illegal are the decoder's two ways to refuse. -/
theorem decode_of_illegal {w : Word} (h : w.toNat / 256 ≠ 0 ∨ reservedOpcode (w.toNat % 256) = true) :
    ∃ e, decode w = .error e := by
  obtain ⟨hhigh, hreserved, -⟩ := illegalWordsAreExactlyTheListed w
  by_cases hz : w.toNat / 256 = 0
  · exact ⟨_, hreserved hz (h.resolve_left (not_not_intro hz))⟩
  · exact ⟨_, hhigh hz⟩

theorem commandStep_of_error {w : Word} {e : DecodeError} (h : decode w = .error e) (s : State) :
    commandStep w s = .next (setErr 4 s) := by
  rw [commandStep, h, illegalCommand_eq]

theorem commandStep_of_ok {w : Word} {i : Instr} (h : decode w = .ok i) (s : State) :
    commandStep w s = exec i s := by
  rw [commandStep, h]

/-- Settles O5: the illegal word does not decode, so its step only marks the error; the state it leaves has the next
write to CMD as its oldest access, and that word decodes. -/
theorem illegalWordRaisesIllegalCommand : Obligations.IllegalWordRaisesIllegalCommand := by
  intro s w rest hillegal hp
  obtain ⟨e, hdecode⟩ := decode_of_illegal hillegal
  refine ⟨?_, fun w' i rest' hlegal hnext => ?_⟩
  · exact (step_commandWrite hp).trans (commandStep_of_error hdecode _)
  · exact (step_commandWrite hnext).trans (commandStep_of_ok hlegal _)

end Sys2Proof.Machine

/-! The errors of commands (60_exceptions.md R200 to R207): R201's and R202's cases, in R205's order, decide how every
command ends, and each of the three ends has its own STATUS.ERR. -/

namespace Sys2Proof.Machine

section

variable {i : Instr} {s : State}

/-! ## The cases of a command -/

/-- An input that DESFRM finds no FormatError in is a header, 104 bits and whole payload bytes. -/
theorem exists_payload_of_not_formatErrorCase (h : ¬ FormatErrorCase .desfrm s) :
    ∃ n, s.ilen = hdrw s + 104 + 8 * n := by
  obtain ⟨hoctets, hlong⟩ : s.ilen % 8 = 0 ∧ hdrw s + 104 ≤ s.ilen := by simpa [FormatErrorCase] using h
  exact exists_payload_of_ilen hoctets hlong

/-! ## The three ends of a command -/

theorem exec_of_formatErrorCase (h : FormatErrorCase i s) : exec i s = .next (setErr 1 s) := by
  obtain ⟨rfl, hempty⟩ | ⟨rfl, hshort⟩ | ⟨rfl, hoctets⟩ | ⟨rfl, hshort⟩ := h
  · rw [exec_dec, if_pos hempty]
  · rw [exec_deshdr, if_pos hshort]
  · exact exec_desfrm_of_malformed (.inl hoctets)
  · exact exec_desfrm_of_malformed (.inr hshort)

/-- R205's order is the hypothesis on FormatError: DESFRM alone has inputs in both lists. -/
theorem exec_of_rangeErrorCase (h : RangeErrorCase i s) (hformat : ¬ FormatErrorCase i s) :
    exec i s = .next (setErr 2 s) := by
  obtain ⟨rfl, hbig⟩ | ⟨rfl, hbig⟩ | ⟨rfl, hbig⟩ | ⟨rfl, hlong⟩ | ⟨rfl, hbig⟩ | ⟨rfl, hbig⟩ | ⟨rfl, hphr⟩ |
    ⟨rfl, hphr⟩ | ⟨rfl, hplen⟩ | ⟨rfl, hlong⟩ := h
  · exact encodeA_of_too_big (w := 8) hbig
  · exact encodeA_of_too_big (w := 7) hbig
  · exact encodeA_of_too_big (w := 16) hbig
  · rw [exec_dec, if_neg (by omega), if_pos hlong]
  · rw [exec_jrenc, if_pos hbig]
  · rw [exec_jrdec, if_pos hbig]
  · rw [exec_serhdr, if_pos hphr]
  · exact exec_serfrm_of_refused (.inl hphr)
  · exact exec_serfrm_of_refused (.inr hplen)
  · obtain ⟨n, hlen⟩ := exists_payload_of_not_formatErrorCase hformat
    rw [exec_desfrm_of_length hlen, if_pos (by omega)]

/-- R201 and R202 list every check a command makes: outside their cases it completes. -/
theorem exec_of_no_errorCase (hformat : ¬ FormatErrorCase i s) (hrange : ¬ RangeErrorCase i s) :
    ∃ u, exec i s = .next (setErr 0 u) := by
  cases i with
  | nop => exact ⟨_, exec_nop s⟩
  | enc8 =>
    have hfits : s.a.toNat ≤ 255 := by simpa [RangeErrorCase] using hrange
    exact ⟨_, encodeA_of_fits (w := 8) (Nat.lt_succ_of_le hfits)⟩
  | enc7 =>
    have hfits : s.a.toNat ≤ 127 := by simpa [RangeErrorCase] using hrange
    exact ⟨_, encodeA_of_fits (w := 7) (Nat.lt_succ_of_le hfits)⟩
  | enc16 =>
    have hfits : s.a.toNat ≤ 65535 := by simpa [RangeErrorCase] using hrange
    exact ⟨_, encodeA_of_fits (w := 16) (Nat.lt_succ_of_le hfits)⟩
  | dec =>
    have hpos : s.ilen ≠ 0 := by simpa [FormatErrorCase] using hformat
    have hle : s.ilen ≤ 32 := by simpa [RangeErrorCase] using hrange
    exact ⟨_, exec_dec_of_length (Nat.pos_of_ne_zero hpos) hle⟩
  | rev => exact ⟨_, exec_rev s⟩
  | movoi => exact ⟨_, exec_movoi s⟩
  | jrenc => exact ⟨_, exec_jrenc_of_fits (by simpa [RangeErrorCase] using hrange)⟩
  | jrgen => exact ⟨_, exec_jrgen s⟩
  | jrdec => exact ⟨_, exec_jrdec_of_fits (by simpa [RangeErrorCase] using hrange)⟩
  | serhdr => exact ⟨_, exec_serhdr_of_fits (by simpa [RangeErrorCase] using hrange)⟩
  | deshdr => exact ⟨_, exec_deshdr_of_length (by simpa [FormatErrorCase] using hformat)⟩
  | serfrm =>
    obtain ⟨hphr, hplen⟩ : s.hPhr.toNat < 128 ∧ s.plen.toNat ≤ s.maxPayload := by
      simpa [RangeErrorCase] using hrange
    exact ⟨_, exec_serfrm_of_fits hphr hplen⟩
  | desfrm =>
    obtain ⟨n, hlen⟩ := exists_payload_of_not_formatErrorCase hformat
    have hle : s.ilen ≤ hdrw s + 104 + 8 * s.maxPayload := by simpa [RangeErrorCase] using hrange
    exact ⟨_, (exec_desfrm_of_length hlen).trans (if_neg (by omega))⟩
  | locate => exact ⟨_, exec_locate s⟩

/-! ## The error a command leaves -/

/-- The three ends exclude one another, since each has its own code: what a command leaves in STATUS.ERR tells which
list it was in. -/
theorem errorCase_of_exec {t : State} (h : exec i s = .next t) :
    (t.err = 1 ∧ FormatErrorCase i s) ∨ (t.err = 2 ∧ RangeErrorCase i s ∧ ¬ FormatErrorCase i s) ∨
    (t.err = 0 ∧ ¬ RangeErrorCase i s ∧ ¬ FormatErrorCase i s) := by
  by_cases hformat : FormatErrorCase i s
  · rw [exec_of_formatErrorCase hformat] at h
    cases h
    exact .inl ⟨rfl, hformat⟩
  by_cases hrange : RangeErrorCase i s
  · rw [exec_of_rangeErrorCase hrange hformat] at h
    cases h
    exact .inr (.inl ⟨rfl, hrange, hformat⟩)
  · obtain ⟨u, hdone⟩ := exec_of_no_errorCase hformat hrange
    rw [hdone] at h
    cases h
    exact .inr (.inr ⟨rfl, hrange, hformat⟩)

end

/-- Settles O19: a case of R201 ends the command, and of the three ends only that one leaves code 1. -/
theorem formatErrorExactlyWhenListed : Obligations.FormatErrorExactlyWhenListed := by
  refine fun i s => ⟨exec_of_formatErrorCase, fun t h herr => ?_⟩
  obtain ⟨-, hformat⟩ | ⟨hcode, -⟩ | ⟨hcode, -⟩ := errorCase_of_exec h
  · exact hformat
  · exact absurd (hcode.symm.trans herr) (by decide)
  · exact absurd (hcode.symm.trans herr) (by decide)

/-- Settles O20: past the FormatError checks a case of R202 ends the command, and only that end leaves code 2. -/
theorem rangeErrorExactlyWhenListed : Obligations.RangeErrorExactlyWhenListed := by
  refine fun i s => ⟨exec_of_rangeErrorCase, fun t h herr => ?_⟩
  obtain ⟨hcode, -⟩ | ⟨-, hrange⟩ | ⟨hcode, -⟩ := errorCase_of_exec h
  · exact absurd (hcode.symm.trans herr) (by decide)
  · exact hrange
  · exact absurd (hcode.symm.trans herr) (by decide)

end Sys2Proof.Machine

/-! Reset (70_reset_and_hazards.md R221): what the host reads of the reset state, and the frame SERFRM makes of it. -/

namespace Sys2Proof.Machine

/-! ## Strings of zeros, and strings written as words -/

theorem bits_zero (w : Nat) : bits w 0 = zeros w := by
  induction w with
  | zero => rfl
  | succ w ih => rw [bits, ih, Nat.zero_testBit]; rfl

theorem slice_zeros (n i m : Nat) : slice (zeros n) i m = zeros (min m (n - i)) := by
  simp [slice, zeros]

theorem zeros_append (m n : Nat) : zeros m ++ zeros n = zeros (m + n) := by
  simp [zeros]

theorem padTo_zeros (n m : Nat) : padTo n (zeros m) = zeros (m + (n - m)) := by
  rw [padTo, zeros_length, zeros_append]

/-- A buffer of zeros shows zero words, past its end as well. -/
theorem windowWord_zeros (n k : Nat) : windowWord (zeros n) k = 0 := by
  rw [windowWord, slice_zeros, padTo_zeros, val_zeros]
  rfl

/-- A buffer that begins with the digits of a word shows that word first. -/
theorem windowWord_bits_append_zero (w : Word) (t : BitString) : windowWord (bits 32 w.toNat ++ t) 0 = w := by
  have hfirst : slice (bits 32 w.toNat ++ t) (32 * 0) 32 = bits 32 w.toNat := slice_prefix (bits_length 32 _)
  rw [windowWord, hfirst, padTo, bits_length, Nat.sub_self, zeros, List.replicate_zero, List.append_nil, ofNat_val_bits]

/-- The words after the first are those of the rest of the buffer. -/
theorem windowWord_bits_append_succ (v k : Nat) (t : BitString) :
    windowWord (bits 32 v ++ t) (k + 1) = windowWord t k := by
  rw [windowWord, slice_append_right (by rw [bits_length]; omega), bits_length, Nat.mul_succ, Nat.add_sub_cancel,
    windowWord]

/-! ## What the host reads after reset -/

theorem reset_wf : State.reset.Wf :=
  ⟨by decide, List.length_replicate, List.length_replicate, Nat.zero_le _, Nat.zero_le _, rfl, .inl rfl⟩

theorem reset_ibuf : State.reset.ibuf = zeros 1072 := rfl

theorem reset_obuf : State.reset.obuf = zeros 1072 := rfl

/-- R221's table at the bus: of all the registers only two hold a bit that is not 0. -/
theorem readReg_reset (g : Reg) :
    readReg State.reset g = if g = .hSfd then 0xA7 else if g = .param then 0x04300072 else 0 := by
  cases g with
  | ibuf k => rw [readReg, reset_ibuf, windowWord_zeros]; rfl
  | obuf k => rw [readReg, reset_obuf, windowWord_zeros]; rfl
  | _ => rfl

/-- No two registers of a block share an address. -/
theorem regAddr_inj {n : Nat} {g h : Reg} (hn : n ≤ 64) (hg : g.mapped n) (hh : h.mapped n) :
    regAddr g = regAddr h ↔ g = h := by
  refine ⟨fun heq => ?_, congrArg regAddr⟩
  have hsame : some g = some h := by rw [← regAt_regAddr hn hg, heq, regAt_regAddr hn hh]
  exact Option.some.inj hsame

/-- A mapped word reads its register's reset value, an unmapped word 0. -/
theorem busRead_reset {addr : Nat} (ha : addr % 4 = 0) :
    busRead State.reset addr = if addr = 0x020 then 0xA7 else if addr = 0x044 then 0x04300072 else 0 := by
  have hn := windowWords_le reset_wf
  by_cases hmapped : ∃ g : Reg, g.mapped (windowWords State.reset) ∧ addr = regAddr g
  · obtain ⟨g, hg, rfl⟩ := hmapped
    have hsfd : regAddr g = 0x020 ↔ g = .hSfd := regAddr_inj (h := .hSfd) hn hg trivial
    have hparam : regAddr g = 0x044 ↔ g = .param := regAddr_inj (h := .param) hn hg trivial
    rw [busRead_regAddr reset_wf hg, readReg_reset]
    simp only [hsfd, hparam]
  · have hun : ∀ g : Reg, g.mapped (windowWords State.reset) → addr ≠ regAddr g :=
      fun g hg haddr => hmapped ⟨g, hg, haddr⟩
    have hsfd : addr ≠ 0x020 := hun .hSfd trivial
    have hparam : addr ≠ 0x044 := hun .param trivial
    rw [busRead_unmapped ha hun, if_neg hsfd, if_neg hparam]

/-! ## The frame of the reset state -/

/-- The fields are all 0 but the SFD, which stands in positions 32 to 39 (42_frame.md R140). -/
theorem frameString_reset : frameString State.reset = zeros 32 ++ bits 8 0xA7 ++ zeros 112 := by
  have hheader : headerString State.reset = zeros 32 ++ bits 8 0xA7 ++ zeros 7 ++ zeros 1 := rfl
  have hmac : macString State.reset = zeros 88 := bits_zero 88
  have htrailer : zeros (8 * State.reset.plen.toNat) ++ bits 16 State.reset.fcs.toNat = zeros 16 := rfl
  rw [frameString, hheader, hmac, List.append_assoc _ (zeros _) (bits _ _), htrailer]
  simp only [List.append_assoc, zeros_append]

/-- OBUF after SERFRM, as words: 0, the SFD in the top byte of the next, and zeros to the end. -/
theorem padTo_frameString_reset :
    padTo (capacity State.reset) (frameString State.reset) =
      bits 32 (0 : Word).toNat ++ (bits 32 (0xA7000000 : Word).toNat ++ zeros 1008) := by
  calc padTo (capacity State.reset) (frameString State.reset)
      = zeros 32 ++ bits 8 0xA7 ++ zeros 112 ++ zeros (1072 - 152) := by
        rw [padTo, frameString_length, frameString_reset]; rfl
    _ = zeros 32 ++ (bits 8 0xA7 ++ zeros 24 ++ zeros 1008) := by simp only [List.append_assoc, zeros_append]
    _ = bits 32 (0 : Word).toNat ++ (bits 32 (0xA7000000 : Word).toNat ++ zeros 1008) := rfl

theorem exec_serfrm_reset :
    ∃ t, exec .serfrm State.reset = .next t ∧ t.err = 0 ∧ t.olen = 152 ∧ windowWords t = 34 ∧
      t.obuf = bits 32 (0 : Word).toNat ++ (bits 32 (0xA7000000 : Word).toNat ++ zeros 1008) :=
  ⟨_, exec_serfrm_of_fits (by decide) (by decide), rfl, frameString_length State.reset, rfl,
    padTo_frameString_reset⟩

theorem busRead_obuf {s : State} {k : Nat} (hw : s.Wf) (hk : k < windowWords s) :
    busRead s (0x200 + 4 * k) = windowWord s.obuf k :=
  busRead_regAddr (g := .obuf k) hw hk

/-- Settles O12: the reads are R221's table through the register map; SERFRM's frame fits, and OBUF's words are read off
the frame string written as words. -/
theorem resetStateHasTheSpecValues : Obligations.ResetStateHasTheSpecValues := by
  refine ⟨fun addr _ ha => busRead_reset ha, reset_ibuf, reset_obuf, ?_⟩
  obtain ⟨t, hexec, herr, holen, hwindow, hobuf⟩ := exec_serfrm_reset
  have hword (k : Nat) (hk : k < 34) : busRead t (0x200 + 4 * k) = windowWord t.obuf k :=
    busRead_obuf (exec_wf reset_wf hexec) (hwindow ▸ hk)
  have hpreamble : busRead t (0x200 + 4 * 0) = 0 := by
    rw [hword 0 (by decide), hobuf, windowWord_bits_append_zero]
  have hsfd : busRead t (0x200 + 4 * 1) = 0xA7000000 := by
    rw [hword 1 (by decide), hobuf, windowWord_bits_append_succ, windowWord_bits_append_zero]
  have hrest (k : Nat) (hk : k < 32) : busRead t (0x200 + 4 * (k + 2)) = 0 := by
    rw [hword _ (by omega), hobuf, windowWord_bits_append_succ, windowWord_bits_append_succ, windowWord_zeros]
  exact ⟨t, hexec, herr, holen, hpreamble, hsfd, hrest 0 (by decide), hrest 1 (by decide), hrest 2 (by decide)⟩

end Sys2Proof.Machine

/-! What a command writes when it completes, as one function of the state before. R201's and R202's cases and this
function are all there is to a command, so that what a command ignores is read off these three. -/

namespace Sys2Proof.Machine

/-! ## The writes of a command that completes -/

/-- The writes of each command on success (30_encoding.md R82), before STATUS.ERR <- 0. -/
def writesOnSuccess (i : Instr) (s : State) : State :=
  match i with
  | .nop => s
  | .enc8 => emit (bits 8 s.a.toNat) s
  | .enc7 => emit (bits 7 s.a.toNat) s
  | .enc16 => emit (bits 16 s.a.toNat) s
  | .dec => setResult (BitVec.ofNat 32 (val (inbits s))) s
  | .rev => emit (rev (inbits s)) s
  | .movoi => copyOutToIn s
  | .jrenc => storeToken (BitVec.ofNat 6 s.a.toNat) s
  | .jrgen => afterDraw (storeToken (Config.rnd6 s.draws) s)
  | .jrdec => setResult (jrdecResult (BitVec.ofNat 8 s.a.toNat)) s
  | .serhdr => emit (headerString s) s
  | .deshdr => setHeader (inputHeader s) s
  | .serfrm => emit (frameString s) s
  | .desfrm => loadFrame s
  | .locate => setResult (BitVec.ofNat 32 (locateField s.jrEn s.jrEarly s.a.toNat)) s

section

variable {i : Instr} {s t : State}

/-- A command that leaves STATUS.ERR at 0 passed its checks, and made the writes of its row. -/
theorem eq_writesOnSuccess_of_exec (h : exec i s = .next t) (herr : t.err = 0) :
    t = setErr 0 (writesOnSuccess i s) := by
  cases i with
  | nop => rw [exec_nop] at h; cases h; rfl
  | enc8 => exact (encodeA_completed (w := 8) h herr).2
  | enc7 => exact (encodeA_completed (w := 7) h herr).2
  | enc16 => exact (encodeA_completed (w := 16) h herr).2
  | dec =>
    rw [exec_dec] at h
    split_ifs at h <;> cases h
    · simp at herr
    · simp at herr
    · rfl
  | rev => rw [exec_rev] at h; cases h; rfl
  | movoi => rw [exec_movoi] at h; cases h; rfl
  | jrenc =>
    rw [exec_jrenc] at h
    split_ifs at h <;> cases h
    · simp at herr
    · rfl
  | jrgen => rw [exec_jrgen] at h; cases h; rfl
  | jrdec =>
    rw [exec_jrdec] at h
    split_ifs at h <;> cases h
    · simp at herr
    · rfl
  | serhdr =>
    rw [exec_serhdr] at h
    split_ifs at h <;> cases h
    · simp at herr
    · rfl
  | deshdr =>
    rw [exec_deshdr] at h
    split_ifs at h <;> cases h
    · simp at herr
    · rfl
  | serfrm =>
    rw [exec_serfrm] at h
    split_ifs at h <;> cases h
    · simp at herr
    · simp at herr
    · rfl
  | desfrm =>
    rw [exec_desfrm] at h
    split_ifs at h <;> cases h
    · simp at herr
    · simp at herr
    · simp at herr
    · rfl
  | locate => rw [exec_locate] at h; cases h; rfl

/-! ## How a command ends -/

/-- Outside the cases of R201 and R202 a command makes the writes of its row. -/
theorem exec_of_completes (hformat : ¬ FormatErrorCase i s) (hrange : ¬ RangeErrorCase i s) :
    exec i s = .next (setErr 0 (writesOnSuccess i s)) := by
  obtain ⟨u, hdone⟩ := exec_of_no_errorCase hformat hrange
  rw [hdone, eq_writesOnSuccess_of_exec hdone rfl]

/-- The three ends of a command (60_exceptions.md R200): the two errors write STATUS.ERR alone. -/
theorem exec_ends (i : Instr) (s : State) :
    (∃ c : BitVec 4, (c = 1 ∨ c = 2) ∧ exec i s = .next (setErr c s)) ∨
    exec i s = .next (setErr 0 (writesOnSuccess i s)) := by
  by_cases hformat : FormatErrorCase i s
  · exact .inl ⟨1, .inl rfl, exec_of_formatErrorCase hformat⟩
  by_cases hrange : RangeErrorCase i s
  · exact .inl ⟨2, .inr rfl, exec_of_rangeErrorCase hrange hformat⟩
  · exact .inr (exec_of_completes hformat hrange)

/-- Two states in the same error cases end a command alike: with the same error, or each with the writes that the
command makes from it. -/
theorem exec_ends_alike {s' : State} (h : exec i s = .next t) (hformat : FormatErrorCase i s' ↔ FormatErrorCase i s)
    (hrange : RangeErrorCase i s' ↔ RangeErrorCase i s) :
    (∃ c : BitVec 4, (c = 1 ∨ c = 2) ∧ t = setErr c s ∧ exec i s' = .next (setErr c s')) ∨
    (t = setErr 0 (writesOnSuccess i s) ∧ exec i s' = .next (setErr 0 (writesOnSuccess i s'))) := by
  by_cases hf : FormatErrorCase i s
  · rw [exec_of_formatErrorCase hf] at h
    cases h
    exact .inl ⟨1, .inl rfl, rfl, exec_of_formatErrorCase (hformat.mpr hf)⟩
  by_cases hr : RangeErrorCase i s
  · rw [exec_of_rangeErrorCase hr hf] at h
    cases h
    exact .inl ⟨2, .inr rfl, rfl, exec_of_rangeErrorCase (hrange.mpr hr) (mt hformat.mp hf)⟩
  · rw [exec_of_completes hf hr] at h
    cases h
    exact .inr ⟨rfl, exec_of_completes (mt hformat.mp hf) (mt hrange.mp hr)⟩

end

/-- Settles O17: an error writes STATUS.ERR alone, and every other command completes. -/
theorem everyCommandEndsInOneOutcome : Obligations.EveryCommandEndsInOneOutcome := by
  intro i s
  obtain ⟨c, hc, h⟩ | h := exec_ends i s
  · exact ⟨_, h, .inr ⟨hc, rfl⟩⟩
  · exact ⟨_, h, .inl rfl⟩

/-- Every command answers a next state (93_implementation_defined.md section 1). -/
theorem exec_exists_next (i : Instr) (s : State) : ∃ t, exec i s = .next t := by
  obtain ⟨t, h, -⟩ := everyCommandEndsInOneOutcome i s
  exact ⟨t, h⟩

/-! ## What a command leaves unchanged -/

/-- STATUS.ERR is in every row of R82. -/
theorem setErr_eq_writesOf (i : Instr) (c : BitVec 4) (s : State) : setErr c s = writesOf i s (setErr c s) := by
  cases i <;> rfl

/-- The writes of each command are those its row of R82 lists. -/
theorem writesOnSuccess_eq_writesOf (i : Instr) (s : State) :
    setErr 0 (writesOnSuccess i s) = writesOf i s (setErr 0 (writesOnSuccess i s)) := by
  cases i <;> rfl

/-- Settles O18: an error writes STATUS.ERR, which is in every row, and a completed command the writes of its own. -/
theorem commandsWriteOnlyTheirRegisters : Obligations.CommandsWriteOnlyTheirRegisters := by
  intro i s t h
  obtain ⟨c, -, hend⟩ | hend := exec_ends i s <;> rw [hend] at h <;> cases h
  · exact setErr_eq_writesOf i c s
  · exact writesOnSuccess_eq_writesOf i s

section

variable (i : Instr) (s t : State)

@[simp] theorem writesOf_cmd : (writesOf i s t).cmd = s.cmd := by cases i <;> rfl

@[simp] theorem writesOf_maxPayload : (writesOf i s t).maxPayload = s.maxPayload := by cases i <;> rfl

@[simp] theorem writesOf_pending : (writesOf i s t).pending = s.pending := by cases i <;> rfl

@[simp] theorem writesOf_reads : (writesOf i s t).reads = s.reads := by cases i <;> rfl

theorem writesOf_draws {i : Instr} (hi : i ≠ .jrgen) : (writesOf i s t).draws = s.draws := by
  cases i with
  | jrgen => exact absurd rfl hi
  | _ => rfl

end

section

variable {i : Instr} {s t : State}

theorem exec_cmd (h : exec i s = .next t) : t.cmd = s.cmd := by
  rw [commandsWriteOnlyTheirRegisters i s t h, writesOf_cmd]

theorem exec_maxPayload (h : exec i s = .next t) : t.maxPayload = s.maxPayload := by
  rw [commandsWriteOnlyTheirRegisters i s t h, writesOf_maxPayload]

theorem exec_pending (h : exec i s = .next t) : t.pending = s.pending := by
  rw [commandsWriteOnlyTheirRegisters i s t h, writesOf_pending]

theorem exec_reads (h : exec i s = .next t) : t.reads = s.reads := by
  rw [commandsWriteOnlyTheirRegisters i s t h, writesOf_reads]

theorem exec_draws (hi : i ≠ .jrgen) (h : exec i s = .next t) : t.draws = s.draws := by
  rw [commandsWriteOnlyTheirRegisters i s t h, writesOf_draws s t hi]

end

end Sys2Proof.Machine

/-! What a command does not read: the cases of R201 and R202 and the writes on success are the same, but for the field
itself, whatever the field holds. -/

namespace Sys2Proof.Machine

/-! ## The random source -/

theorem writesOnSuccess_draws {i : Instr} (hi : i ≠ .jrgen) (s : State) (n : Nat) :
    writesOnSuccess i { s with draws := n } = { writesOnSuccess i s with draws := n } := by
  cases i with
  | jrgen => exact absurd rfl hi
  | _ => rfl

/-- Settles O21: JRGEN has no check, and no other command's checks or writes name the draw counter. -/
theorem onlyJrgenDraws : Obligations.OnlyJrgenDraws := by
  refine ⟨fun s t h => ?_, fun i s t n hi h => ⟨exec_draws hi h, ?_⟩⟩
  · rw [exec_jrgen] at h
    cases h
    rfl
  · obtain ⟨c, -, rfl, hend⟩ | ⟨rfl, hend⟩ := exec_ends_alike (s' := { s with draws := n }) h Iff.rfl Iff.rfl
    · exact hend
    · rw [hend, writesOnSuccess_draws hi]
      rfl

/-! ## Positions of IBUF past ILEN -/

section

variable {s : State} {buf : BitString} (hbuf : buf.take s.ilen = s.ibuf.take s.ilen)

include hbuf

theorem inbits_of_same_input : inbits { s with ibuf := buf } = inbits s := hbuf

/-- Every command but MOVOI reads IBUF as its input string, and keeps it. -/
theorem writesOnSuccess_ibuf {i : Instr} (hi : i ≠ .movoi) :
    writesOnSuccess i { s with ibuf := buf } = { writesOnSuccess i s with ibuf := buf } := by
  have hin := inbits_of_same_input hbuf
  cases i with
  | movoi => exact absurd rfl hi
  | dec => rw [writesOnSuccess, hin]; rfl
  | rev => rw [writesOnSuccess, hin]; rfl
  | deshdr => rw [writesOnSuccess, inputHeader, hin]; rfl
  | desfrm => rw [writesOnSuccess, loadFrame, inputHeader, hin]; rfl
  | _ => rfl

end

/-- Settles O22: the checks read ILEN but no position of IBUF, and the writes read its first ILEN positions. -/
theorem positionsPastIlenAreNeverRead : Obligations.PositionsPastIlenAreNeverRead := by
  refine fun i s t buf hbuf h => ⟨fun hi => ?_, ?_⟩
  · obtain ⟨c, -, rfl, hend⟩ | ⟨rfl, hend⟩ := exec_ends_alike (s' := { s with ibuf := buf }) h Iff.rfl Iff.rfl
    · exact hend
    · rw [hend, writesOnSuccess_ibuf hbuf hi]
      rfl
  · rintro rfl
    rw [exec_movoi] at h
    cases h
    exact exec_movoi _

/-! ## JR_EARLY while JR_EN = 0 -/

section

variable {s : State} (b : Bool) (hen : s.jrEn = false)

include hen

theorem headerString_jrEarly : headerString { s with jrEarly := b } = headerString s := by
  change hdr s.jrEn b s.hSfd s.hJrb s.hPhr = hdr s.jrEn s.jrEarly s.hSfd s.hJrb s.hPhr
  rw [hen]
  rfl

theorem inputHeader_jrEarly : inputHeader { s with jrEarly := b } = inputHeader s := by
  change hfields s.jrEn b (inbits s) = hfields s.jrEn s.jrEarly (inbits s)
  rw [hen]
  rfl

theorem locateField_jrEarly (o : Nat) : locateField s.jrEn b o = locateField s.jrEn s.jrEarly o := by
  rw [hen]
  rfl

theorem writesOnSuccess_jrEarly (i : Instr) :
    writesOnSuccess i { s with jrEarly := b } = { writesOnSuccess i s with jrEarly := b } := by
  cases i with
  | serhdr => rw [writesOnSuccess, headerString_jrEarly b hen]; rfl
  | serfrm => rw [writesOnSuccess, frameString, headerString_jrEarly b hen]; rfl
  | deshdr => rw [writesOnSuccess, inputHeader_jrEarly b hen]; rfl
  | desfrm => rw [writesOnSuccess, loadFrame, inputHeader_jrEarly b hen]; rfl
  | locate => simp only [writesOnSuccess, locateField_jrEarly b hen]; rfl
  | _ => rfl

end

/-- Settles O23: the checks do not name JR_EARLY, and the three layouts that do choose by it only when JR_EN = 1. -/
theorem earlyFlagIgnoredWhenDisabled : Obligations.EarlyFlagIgnoredWhenDisabled := by
  intro i s t b hen h
  obtain ⟨c, -, rfl, hend⟩ | ⟨rfl, hend⟩ := exec_ends_alike (s' := { s with jrEarly := b }) h Iff.rfl Iff.rfl
  · exact hend
  · rw [hend, writesOnSuccess_jrEarly b hen]
    rfl

/-! ## H_PRE and H_RSV -/

/-- DESHDR and DESFRM overwrite both registers. -/
theorem writesOnSuccess_pre_rsv_loaded {i : Instr} (hi : i = .deshdr ∨ i = .desfrm) (s : State) (p : Word)
    (b : Bool) : writesOnSuccess i { s with hPre := p, hRsv := b } = writesOnSuccess i s := by
  obtain rfl | rfl := hi <;> rfl

theorem writesOnSuccess_pre_rsv_kept {i : Instr} (hi : ¬ (i = .deshdr ∨ i = .desfrm)) (s : State) (p : Word)
    (b : Bool) :
    writesOnSuccess i { s with hPre := p, hRsv := b } = { writesOnSuccess i s with hPre := p, hRsv := b } := by
  cases i with
  | deshdr => exact absurd (.inl rfl) hi
  | desfrm => exact absurd (.inr rfl) hi
  | _ => rfl

/-- Settles O24: neither register is in a check; of the writes only those of DESHDR and DESFRM touch them, with the
fields of the input. -/
theorem preambleAndReservedBitAreNeverRead : Obligations.PreambleAndReservedBitAreNeverRead := by
  intro i s t p b h
  obtain ⟨c, hc, rfl, hend⟩ | ⟨rfl, hend⟩ :=
    exec_ends_alike (s' := { s with hPre := p, hRsv := b }) h Iff.rfl Iff.rfl
  · have herr : c ≠ 0 := by rintro rfl; simp at hc
    exact ⟨p, b, hend, fun hload => absurd hload.2 herr, fun _ => ⟨rfl, rfl⟩⟩
  · by_cases hi : i = .deshdr ∨ i = .desfrm
    · rw [writesOnSuccess_pre_rsv_loaded hi] at hend
      exact ⟨_, _, hend, fun _ => ⟨rfl, rfl⟩, fun hkeep => absurd ⟨hi, rfl⟩ hkeep⟩
    · rw [writesOnSuccess_pre_rsv_kept hi] at hend
      exact ⟨p, b, hend, fun hload => absurd hload.1 hi, fun _ => ⟨rfl, rfl⟩⟩

end Sys2Proof.Machine

/-! REV undone, the parts of a frame that the header does not reach, and what LOCATE reads. -/

namespace Sys2Proof.Machine

/-! ## REV twice -/

theorem rev_rev (str : BitString) : rev (rev str) = str := List.reverse_reverse str

/-- Settles O32: MOVOI makes the reversed input the next input, whose reverse is the input. -/
theorem revTwiceGivesBackTheInput : Obligations.RevTwiceGivesBackTheInput := by
  intro s hs
  refine ⟨_, _, _, exec_rev s, exec_movoi _, exec_rev _, rfl, ?_, fun k hk => ?_⟩ <;>
    rw [inbits_setErr, inbits_copyOutToIn_setErr_emit, rev_rev]
  · exact inbits_length (ilen_le_ibuf_length hs)
  · have hin : k < (inbits s).length := by rwa [inbits_length (ilen_le_ibuf_length hs)]
    rw [setErr_obuf, emit_obuf, padTo_getElem?_lt hin, inbits_getElem? hk]

/-! ## H_PHR and the payload -/

/-- The frame string after its header: MAC, payload and FCS (42_frame.md R140). -/
def frameTail (s : State) : BitString := macString s ++ zeros (8 * s.plen.toNat) ++ bits 16 s.fcs.toNat

theorem frameString_eq_append (s : State) : frameString s = headerString s ++ frameTail s := by
  simp only [frameString, frameTail, List.append_assoc]

/-- From the header's end on, an emitted frame is the tail with its fill: H_PHR has no part in it. -/
theorem padTo_frameString_getElem? {s : State} {k : Nat} (n : Nat) (hk : hdrw s ≤ k) :
    (padTo n (frameString s))[k]? = (frameTail s ++ zeros (n - frameLength s))[k - hdrw s]? := by
  rw [padTo, frameString_length, frameString_eq_append, List.append_assoc,
    List.getElem?_append_right ((headerString_length s).le.trans hk), headerString_length]

/-- DESFRM's checks see ILEN, JR_EN and MAX_PAYLOAD only. -/
theorem desfrm_errorCases_of_same_length {s s' : State} (hlen : s.ilen = s'.ilen) (hen : s.jrEn = s'.jrEn)
    (hmax : s.maxPayload = s'.maxPayload) :
    (FormatErrorCase .desfrm s' ↔ FormatErrorCase .desfrm s) ∧
    (RangeErrorCase .desfrm s' ↔ RangeErrorCase .desfrm s) := by
  simp [FormatErrorCase, RangeErrorCase, hdrw_eq, hlen, hen, hmax]

theorem payloadCount_of_same_length {s s' : State} (hlen : s.ilen = s'.ilen) (hen : s.jrEn = s'.jrEn) :
    payloadCount s = payloadCount s' := by
  simp only [payloadCount, hdrw_eq, hlen, hen]

/-- Settles O47: DESFRM's checks and its count are of the length alone; the two frames of SERFRM have the same tail
after headers of the same width. -/
theorem phrIsIndependentOfThePayload : Obligations.PhrIsIndependentOfThePayload := by
  refine ⟨fun s s' t t' hlen hen hmax h h' => ?_, fun s p hphr hp hplen => ?_⟩
  · obtain ⟨hformat, hrange⟩ := desfrm_errorCases_of_same_length hlen hen hmax
    obtain ⟨c, hc, rfl, hend⟩ | ⟨rfl, hend⟩ := exec_ends_alike h hformat hrange <;> rw [hend] at h' <;> cases h'
    · have herr : c ≠ 0 := by rintro rfl; simp at hc
      exact ⟨rfl, fun hzero => absurd hzero herr⟩
    · exact ⟨rfl, fun _ => congrArg (BitVec.ofNat 8) (payloadCount_of_same_length hlen hen)⟩
  · have hlen : frameLength { s with hPhr := p } = frameLength s := rfl
    refine ⟨_, _, exec_serfrm_of_fits hphr hplen, exec_serfrm_of_fits (s := { s with hPhr := p }) hp hplen, rfl, ?_,
      fun k hk => ?_⟩
    · simp only [setErr_olen, emit_olen, frameString_length, hlen]
    · simp only [setErr_obuf, emit_obuf]
      rw [padTo_frameString_getElem? _ hk, padTo_frameString_getElem? (s := { s with hPhr := p }) _ hk]
      rfl

/-! ## LOCATE -/

/-- Settles O50: the code is a function of the two CFG bits and A. -/
theorem locateDependsOnCfgAndOffsetOnly : Obligations.LocateDependsOnCfgAndOffsetOnly := by
  intro s s' t t' hen hearly ha h h'
  rw [exec_locate] at h h'
  cases h
  cases h'
  rw [setErr_r, setErr_r, setResult_r, setResult_r, hen, hearly, ha]

end Sys2Proof.Machine

/-! The step (30_encoding.md R81, 20_memory.md R60 to R69): what each event of the host's schedule does, and what no
step stops at or changes. -/

namespace Sys2Proof.Machine

/-- Settles O3: seven words are encodings, read back by the decoder, and the eighth has a bit above the opcode. -/
theorem sampleWordsDecode : Obligations.SampleWordsDecode := by
  obtain ⟨-, -, -, hserfrm⟩ := encodingRoundTrip .serfrm
  exact ⟨decode_encode .nop, decode_encode .enc16, decode_encode .jrdec, decode_encode .deshdr, decode_encode .desfrm,
    decode_encode .locate, hserfrm, rfl⟩

/-! ## The registers that the statements about steps read -/

theorem busRead_status (s : State) : busRead s 0x004 = s.err.setWidth 32 := rfl

theorem busRead_cmd (s : State) : busRead s 0x008 = s.cmd := rfl

theorem busRead_olen (s : State) : busRead s 0x018 = BitVec.ofNat 32 s.olen := rfl

theorem busRead_param (s : State) : busRead s 0x044 = paramWord s := rfl

/-! ## A write to CMD -/

/-- Settles O4: the step of a write to CMD is the command step of its word, which decodes. -/
theorem stepRunsTheDecodedCommand : Obligations.StepRunsTheDecodedCommand := by
  intro s w i rest hdecode hp
  exact (step_commandWrite hp).trans (commandStep_of_ok hdecode _)

theorem withFetchWord_encode_pending (s : State) (i : Instr) :
    (s.withFetchWord 32 (encode i).toNat).pending = .write 0x008 4 (encode i) :: s.pending := by
  rw [State.withFetchWord, Nat.mod_eq_of_lt (encode i).isLt, BitVec.ofNat_toNat, BitVec.setWidth_eq]
  rfl

/-- Settles O6: a placed command is the oldest access, and the accesses behind it are those of s. -/
theorem idleStepAndPlacedCommand : Obligations.IdleStepAndPlacedCommand :=
  ⟨fun _ => step_idle, fun s i =>
    stepRunsTheDecodedCommand _ _ i s.pending (decode_encode i) (withFetchWord_encode_pending s i)⟩

/-- Settles O57: the write stores the word, and no row of R82 has CMD. -/
theorem cmdHoldsTheLastWordWritten : Obligations.CmdHoldsTheLastWordWritten := by
  intro s t w rest hp h
  rw [step_commandWrite hp] at h
  have hcmd : t.cmd = w := by
    obtain ⟨e, -, hstep⟩ | ⟨i, -, hstep⟩ := commandStep_cases w (setCmd w (popAccess rest s)) <;> rw [hstep] at h
    · cases h
      rfl
    · exact exec_cmd h
  refine ⟨(busRead_cmd t).trans hcmd, fun i u hu => ?_⟩
  rw [busRead_cmd, exec_cmd hu, hcmd]

/-! ## A read -/

@[simp] theorem readReg_popAccess (rest : List HostOp) (s : State) (g : Reg) :
    readReg (popAccess rest s) g = readReg s g := by
  cases g <;> rfl

@[simp] theorem readReg_logRead (v : Word) (s : State) (g : Reg) : readReg (logRead v s) g = readReg s g := by
  cases g <;> rfl

/-- States that give every register the same word are read alike, where MAX_PAYLOAD maps the same windows. -/
theorem busRead_congr {s t : State} (addr : Nat) (hmax : t.maxPayload = s.maxPayload)
    (hreg : ∀ g, readReg t g = readReg s g) : busRead t addr = busRead s addr := by
  have hwindow : windowWords t = windowWords s := congrArg Config.nWords hmax
  simp only [busRead, hwindow, hreg]

/-- The schedule is no register. -/
@[simp] theorem busRead_popAccess (rest : List HostOp) (s : State) (addr : Nat) :
    busRead (popAccess rest s) addr = busRead s addr :=
  busRead_congr addr rfl (readReg_popAccess rest s)

/-- The record of reads is no register. -/
@[simp] theorem busRead_logRead (v : Word) (s : State) (addr : Nat) : busRead (logRead v s) addr = busRead s addr :=
  busRead_congr addr rfl (readReg_logRead v s)

/-- Settles O7: the read is recorded, and a second read sees neither the record nor the schedule. -/
theorem hostReadChangesNothing : Obligations.HostReadChangesNothing := by
  intro s addr rest hlt ha hp
  rw [step_read hlt ha hp, busRead_popAccess]
  refine ⟨rfl, ?_⟩
  change busRead (logRead (busRead s addr) (popAccess rest s)) addr = busRead s addr
  rw [busRead_logRead, busRead_popAccess]

/-- The step of the read that follows a command: it finds the registers as the command left them. -/
theorem step_read_after {t : State} {addr : Nat} {rest : List HostOp} (hlt : addr < 4096) (ha : addr % 4 = 0)
    (hp : t.pending = .read addr 4 :: rest) :
    step t = .next { t with reads := busRead t addr :: t.reads, pending := rest } :=
  (hostReadChangesNothing t addr rest hlt ha hp).1

/-- The step that runs SERHDR on a legal H_PHR, and what the registers it is read by hold then (R127). -/
theorem step_serhdr {s : State} {rest : List HostOp} (hphr : s.hPhr.toNat < 128)
    (hp : s.pending = .write 0x008 4 0x20 :: rest) :
    ∃ t, step s = .next t ∧ t.olen = hdrw s ∧ t.err = 0 ∧ t.pending = rest ∧ t.reads = s.reads := by
  refine ⟨_, (stepRunsTheDecodedCommand s 0x20 .serhdr _ (decode_encode .serhdr) hp).trans
    (exec_serhdr_of_fits hphr), ?_, rfl, rfl, rfl⟩
  rw [setErr_olen, emit_olen, headerString_length]
  rfl

/-- Settles O58: a command keeps the schedule and the reads, so that the next access is the read behind it. -/
theorem commandResultIsReadAtOnce : Obligations.CommandResultIsReadAtOnce := by
  refine ⟨fun s i w addr rest hdecode hlt ha hp => ?_, fun s rest hphr hp => ?_⟩
  · obtain ⟨t, ht⟩ := exec_exists_next i { s with cmd := w, pending := .read addr 4 :: rest }
    have hreads := exec_reads ht
    refine ⟨t, _, ht, ?_, step_read_after hlt ha (exec_pending ht), by rw [hreads]⟩
    rw [stepRunsTheDecodedCommand s w i _ hdecode hp, ht]
  · obtain ⟨t, ht, holen, herr, hpending, hreads⟩ := step_serhdr hphr hp
    refine ⟨t, _, _, ht, step_read_after (by decide) (by decide) hpending,
      step_read_after (by decide) (by decide) rfl, ?_, rfl⟩
    change busRead t 0x004 :: busRead t 0x018 :: t.reads = _
    rw [busRead_status, busRead_olen, holen, hdrw_eq, herr, hreads]
    cases s.jrEn <;> rfl

/-! ## Stops -/

/-- Settles O10: the address is looked at first, in both directions. -/
theorem outsideAccessFaults : Obligations.OutsideAccessFaults := by
  intro s addr bytes w rest hout
  have hspace : inAddressSpace addr = false := decide_eq_false (Nat.not_lt.mpr hout)
  constructor <;> intro hp <;> rw [step_access hp, hostAccess]
  · rw [hostRead, hspace]
    rfl
  · rw [hostWrite, hspace]
    rfl

/-- What no register write touches, no bus write touches. -/
theorem busWrite_unchanged {α : Type} {field : State → α} {w : Word} {s : State} (addr : Nat)
    (h : ∀ g, field (writeReg w s g) = field s) : field (busWrite w addr s) = field s := by
  unfold busWrite
  split
  · exact h _
  · rfl

theorem busWrite_pending (w : Word) (addr : Nat) (s : State) : (busWrite w addr s).pending = s.pending :=
  busWrite_unchanged addr (writeReg_pending w s)

/-- Every command word has a result, and the accesses behind it stay (93_implementation_defined.md section 1). -/
theorem commandStep_next (w : Word) (s : State) : ∃ t, commandStep w s = .next t ∧ t.pending = s.pending := by
  obtain ⟨e, -, hstep⟩ | ⟨i, -, hstep⟩ := commandStep_cases w s
  · exact ⟨_, hstep, rfl⟩
  · obtain ⟨t, ht⟩ := exec_exists_next i s
    exact ⟨t, hstep.trans ht, exec_pending ht⟩

theorem inSpace_and_defined_iff {addr bytes : Nat} :
    (inAddressSpace addr && accessDefined addr bytes) = true ↔ addr < 4096 ∧ bytes = 4 ∧ addr % 4 = 0 := by
  rw [Bool.and_eq_true, accessDefined_iff, inAddressSpace, decide_eq_true_eq]

/-- Every access that the spec defines has a result, and the accesses behind it stay. -/
theorem hostAccess_next_of_defined {op : HostOp} (s : State) (h : op.defined = true) :
    ∃ t, hostAccess op s = .next t ∧ t.pending = s.pending := by
  cases op with
  | read addr bytes =>
    obtain ⟨hlt, rfl, ha⟩ := inSpace_and_defined_iff.mp h
    exact ⟨_, hostRead_defined s hlt ha, rfl⟩
  | write addr bytes w =>
    obtain ⟨hlt, rfl, ha⟩ := inSpace_and_defined_iff.mp h
    rw [hostAccess, hostWrite_defined s w hlt ha]
    split_ifs
    · rw [← busWrite_pending w addr s]
      exact commandStep_next w _
    · exact ⟨_, rfl, busWrite_pending w addr s⟩
  | reset => exact ⟨_, rfl, rfl⟩

/-- Settles O11: the access that is made is one the spec defines, and the schedule left is the rest of it. -/
theorem definedAccessesNeverStop : Obligations.DefinedAccessesNeverStop := by
  intro s hs
  cases hp : s.pending with
  | nil => exact ⟨s, step_idle hp, hs⟩
  | cons op rest =>
    rw [State.ScheduleDefined, hp, List.forall_mem_cons] at hs
    obtain ⟨hop, hrest⟩ := hs
    obtain ⟨t, ht, hpending⟩ := hostAccess_next_of_defined (popAccess rest s) hop
    refine ⟨t, (step_access hp).trans ht, ?_⟩
    rwa [State.ScheduleDefined, hpending]

/-! ## MAX_PAYLOAD -/

theorem busWrite_maxPayload (w : Word) (addr : Nat) (s : State) : (busWrite w addr s).maxPayload = s.maxPayload :=
  busWrite_unchanged addr (writeReg_maxPayload w s)

theorem commandStep_maxPayload {w : Word} {s t : State} (h : commandStep w s = .next t) :
    t.maxPayload = s.maxPayload := by
  obtain ⟨e, -, hstep⟩ | ⟨i, -, hstep⟩ := commandStep_cases w s <;> rw [hstep] at h
  · cases h
    rfl
  · exact exec_maxPayload h

theorem step_maxPayload {s t : State} (h : step s = .next t) : t.maxPayload = s.maxPayload := by
  obtain ⟨-, rfl⟩ | ⟨op, rest, -, haccess⟩ := step_cases h
  · rfl
  obtain ⟨addr, -, rfl⟩ | ⟨addr, w, -, -, -, rfl⟩ | ⟨w, -, hcmd⟩ | ⟨-, rfl⟩ := hostAccess_cases haccess
  · rfl
  · exact busWrite_maxPayload w addr _
  · rw [commandStep_maxPayload hcmd, setCmd_maxPayload, popAccess_maxPayload]
  · rfl

/-- Settles O16: no event writes MAX_PAYLOAD, which is all that PARAM's word is made of. -/
theorem stepKeepsTheParameters : Obligations.StepKeepsTheParameters := by
  intro s t h
  have hmax := step_maxPayload h
  refine ⟨hmax, ?_⟩
  rw [busRead_param, busRead_param, paramWord, paramWord, capacity, capacity, hmax]

/-! ## Reset -/

/-- Settles O13: the event is `blockReset`, whose zero buffers have MAXBITS positions. -/
theorem resetInputRestoresEveryRegister : Obligations.ResetInputRestoresEveryRegister := by
  intro s rest hp
  rw [step_access hp, hostAccess, blockReset, capacity_eq]
  rfl

/-- Settles O14: at the default MAX_PAYLOAD both buffers hold 1072 zeros. -/
theorem resetStateIsWellFormed : Obligations.ResetStateIsWellFormed := reset_wf

end Sys2Proof.Machine

/-! The host bus (20_memory.md, 10_state.md R21 to R43): which word is which register, what it reads, and what a write
leaves of it and of the other words. -/

namespace Sys2Proof.Machine

/-! ## The register map -/

/-- Settles O51: the windows have at most 64 words, so that the map is the inverse of the addresses. -/
theorem registerMapIsTheSpecs : Obligations.RegisterMapIsTheSpecs := by
  intro s addr g hs ha
  refine ⟨regAt_sound ha, ?_⟩
  rintro ⟨hg, rfl⟩
  exact regAt_regAddr (windowWords_le hs) hg

/-! ## Fields of words -/

theorem extractLsb'_extractLsb' {n : Nat} (x : BitVec n) {a b k m : Nat} (h : a + k ≤ m) :
    (x.extractLsb' b m).extractLsb' a k = x.extractLsb' (b + a) k := by
  ext i hi
  simp [show a + i < m by omega, Nat.add_assoc]

/-- The low n bits of a word, zero-extended, are the word under the mask of those bits. -/
theorem setWidth_extractLsb'_zero (w : Word) (n : Nat) :
    (w.extractLsb' 0 n).setWidth 32 = w &&& (BitVec.allOnes n).setWidth 32 := by
  ext i hi
  simp [hi, Bool.and_comm]

/-- A zero-extended field of n bits has no bit outside the mask of n bits. -/
theorem setWidth_and_mask {n : Nat} (x : BitVec n) :
    x.setWidth 32 &&& (BitVec.allOnes n).setWidth 32 = x.setWidth 32 := by
  ext i hi
  simpa using BitVec.lt_of_getLsbD

/-- The top 24 bits of a word in their place are the word under the mask of those bits. -/
theorem extractLsb'_eight_append_zero (w : Word) :
    (w.extractLsb' 8 24 ++ 0#8 : BitVec (24 + 8)) = w &&& 0xFFFFFF00 := by
  have hmask : (0xFFFFFF00 : Word) = BitVec.allOnes 24 ++ 0#8 := rfl
  have hw : (w.extractLsb' 8 24 ++ w.extractLsb' 0 8 : BitVec (24 + 8)) = w :=
    (BitVec.extractLsb'_append_extractLsb'_eq_extractLsb' rfl).trans BitVec.extractLsb'_eq_self
  calc (w.extractLsb' 8 24 ++ 0#8 : BitVec (24 + 8))
      = (w.extractLsb' 8 24 ++ w.extractLsb' 0 8) &&& (BitVec.allOnes 24 ++ 0#8) := by
        rw [BitVec.and_append, BitVec.and_allOnes, BitVec.and_zero]
    _ = w &&& 0xFFFFFF00 := by rw [hw, hmask]

theorem append_zero_and_mask (x : BitVec 24) : (x ++ 0#8 : BitVec (24 + 8)) &&& 0xFFFFFF00 = x ++ 0#8 := by
  have hmask : (0xFFFFFF00 : Word) = BitVec.allOnes 24 ++ 0#8 := rfl
  rw [hmask, BitVec.and_append, BitVec.and_allOnes, BitVec.and_self]

/-- The two CFG bits of a word are its low two bits. -/
theorem ofBool_append_ofBool (w : Word) :
    (BitVec.ofBool (w.getLsbD 1) ++ BitVec.ofBool (w.getLsbD 0) : BitVec (1 + 1)) = w.extractLsb' 0 2 := by
  refine BitVec.eq_of_getLsbD_eq fun i hi => ?_
  rw [BitVec.getLsbD_append]
  interval_cases i <;> simp

/-! ## What a read of a register gives -/

/-- Legal payloads keep every length of the block in 12 bits (00_scope.md R6, R7). -/
theorem capacity_lt {s : State} (hs : s.Wf) : capacity s < 2 ^ 12 := by
  obtain ⟨hmax, -⟩ := hs
  rw [Config.maxPayloadBound] at hmax
  rw [capacity_eq]
  omega

/-- Every length of the block fits the word it is read in. -/
theorem ofNat_toNat_of_le_capacity {s : State} {n : Nat} (hs : s.Wf) (hn : n ≤ capacity s) :
    (BitVec.ofNat 32 n).toNat = n := by
  have hcap := capacity_lt hs
  rw [BitVec.toNat_ofNat, Nat.mod_eq_of_lt (by omega)]

section

variable (s : State)

/-- CFG as its field of two bits. -/
theorem readReg_cfg :
    readReg s .cfg = (BitVec.ofBool s.jrEarly ++ BitVec.ofBool s.jrEn : BitVec (1 + 1)).setWidth 32 := by
  rw [readReg]
  cases s.jrEarly <;> cases s.jrEn <;> rfl

/-- Position j of the MAC string in MAC0, MAC1 and MAC2 (10_state.md R37). -/
theorem readReg_mac0_getLsbD {j : Nat} (hj : j < 32) : (readReg s .mac0).getLsbD (31 - j) = s.mac.getLsbD (87 - j) := by
  rw [readReg, BitVec.getLsbD_extractLsb', decide_eq_true (by omega), Bool.true_and]
  congr 1
  omega

theorem readReg_mac1_getLsbD {j : Nat} (hj : j < 32) : (readReg s .mac1).getLsbD (31 - j) = s.mac.getLsbD (55 - j) := by
  rw [readReg, BitVec.getLsbD_extractLsb', decide_eq_true (by omega), Bool.true_and]
  congr 1
  omega

theorem readReg_mac2_getLsbD {j : Nat} (hj : j < 24) : (readReg s .mac2).getLsbD (31 - j) = s.mac.getLsbD (23 - j) := by
  rw [readReg, BitVec.getLsbD_append, if_neg (by omega), BitVec.getLsbD_extractLsb', decide_eq_true (by omega),
    Bool.true_and]
  congr 1
  omega

theorem readReg_mac2_getLsbD_low {j : Nat} (hj : j < 8) : (readReg s .mac2).getLsbD j = false := by
  rw [readReg, BitVec.getLsbD_append, if_pos hj, BitVec.getLsbD_zero]

theorem paramWord_toNat (hs : s.Wf) : (paramWord s).toNat = s.maxPayload + 2 ^ 16 * capacity s := by
  have hcap := capacity_lt hs
  have hmax : s.maxPayload < 2 ^ 8 := by
    obtain ⟨hmax, -⟩ := hs
    rw [Config.maxPayloadBound] at hmax
    omega
  rw [paramWord]
  simp only [BitVec.toNat_append, BitVec.toNat_ofNat, Nat.shiftLeft_eq, Nat.mod_eq_of_lt hcap, Nat.mod_eq_of_lt hmax]
  rw [Nat.mul_comm, ← Nat.two_pow_add_eq_or_of_lt hmax]
  simp only [Nat.zero_mod, Nat.zero_mul, Nat.zero_or, Nat.or_zero]
  omega

end

/-- Settles O59: each address names its register, whose word is the field; ILEN, OLEN and MAXBITS fit their words. -/
theorem registersReadTheStateFields : Obligations.RegistersReadTheStateFields := by
  intro s hs
  obtain ⟨-, -, -, hilen, holen, -⟩ := id hs
  refine ⟨⟨?_, rfl, rfl, rfl, rfl, ?_, ?_⟩, ⟨rfl, rfl, rfl, rfl, ?_, rfl, rfl⟩, fun j => readReg_mac0_getLsbD s,
    fun j => readReg_mac1_getLsbD s, fun j => readReg_mac2_getLsbD s, fun j => readReg_mac2_getLsbD_low s,
    paramWord_toNat s hs⟩
  · change (readReg s .cfg).toNat = _
    rw [readReg]
    cases s.jrEn <;> cases s.jrEarly <;> rfl
  · exact ofNat_toNat_of_le_capacity hs hilen
  · exact ofNat_toNat_of_le_capacity hs holen
  · change ((BitVec.ofBool s.hRsv).setWidth 32).toNat = _
    cases s.hRsv <;> rfl

/-! ## What a write leaves of the register it addresses -/

theorem writeReg_readOnly {g : Reg} (w : Word) (s : State) (h : g.readOnly = true) : writeReg w s g = s := by
  cases g with
  | status | r | olen | param | obuf => rfl
  | _ => cases h

/-- A written register reads as the word's writable bits (10_state.md R43). -/
theorem readReg_writeReg_same {g : Reg} (w : Word) (s : State) (hwrite : g.readOnly = false) (hilen : g ≠ .ilen)
    (hibuf : ∀ k, g ≠ .ibuf k) : readReg (writeReg w s g) g = w &&& g.writable := by
  cases g with
  | status | r | olen | param | obuf => cases hwrite
  | ilen => exact absurd rfl hilen
  | ibuf k => exact absurd rfl (hibuf k)
  | cmd | a | hPre => exact BitVec.and_allOnes.symm
  | hSfd | hJrb | hPhr | plen => exact setWidth_extractLsb'_zero w 8
  | fcs => exact setWidth_extractLsb'_zero w 16
  | cfg => rw [readReg_cfg, writeReg, ofBool_append_ofBool]; exact setWidth_extractLsb'_zero w 2
  | hRsv => exact BitVec.and_one_eq_setWidth_ofBool_getLsbD.symm
  | mac0 => exact BitVec.extractLsb'_append_eq_left.trans BitVec.and_allOnes.symm
  | mac1 =>
    simp only [readReg, writeReg]
    rw [BitVec.extractLsb'_append_eq_of_le (by decide), BitVec.extractLsb'_append_eq_of_add_le (by decide),
      BitVec.extractLsb'_eq_self]
    exact BitVec.and_allOnes.symm
  | mac2 =>
    simp only [readReg, writeReg]
    rw [BitVec.extractLsb'_append_eq_of_add_le (by decide), BitVec.extractLsb'_eq_self, extractLsb'_eight_append_zero]
    rfl

/-- The reserved bits of a writable register read 0 (10_state.md R43). -/
theorem readReg_and_writable {g : Reg} (s : State) (hwrite : g.readOnly = false) (hilen : g ≠ .ilen)
    (hibuf : ∀ k, g ≠ .ibuf k) : readReg s g &&& g.writable = readReg s g := by
  cases g with
  | status | r | olen | param | obuf => cases hwrite
  | ilen => exact absurd rfl hilen
  | ibuf k => exact absurd rfl (hibuf k)
  | cmd | a | hPre | mac0 | mac1 => exact BitVec.and_allOnes
  | hSfd | hJrb | hPhr | plen | fcs | hRsv => exact setWidth_and_mask _
  | cfg => rw [readReg_cfg]; exact setWidth_and_mask _
  | mac2 => exact append_zero_and_mask _

/-! ## The writes of the host, as steps -/

/-- What a write to a writable register leaves in it, when the host reads it back. -/
theorem busRead_writeReg_same {g : Reg} {s : State} (w : Word) (hs : s.Wf) (hg : g.mapped (windowWords s))
    (hwrite : g.readOnly = false) (hilen : g ≠ .ilen) (hibuf : ∀ k, g ≠ .ibuf k) :
    busRead (writeReg w s g) (regAddr g) = w &&& g.writable := by
  have hwindow : windowWords (writeReg w s g) = windowWords s := congrArg Config.nWords (writeReg_maxPayload w s g)
  rw [busRead_regAddr (writeReg_wf w g hs) (hwindow ▸ hg), readReg_writeReg_same w s hwrite hilen hibuf]

/-- The step of a write to CMD leaves the word there, whatever it is. -/
theorem step_commandWrite_cmd {s : State} {w : Word} {rest : List HostOp}
    (hp : s.pending = .write 0x008 4 w :: rest) : ∃ t, step s = .next t ∧ busRead t 0x008 = w := by
  obtain ⟨t, ht, -⟩ := commandStep_next w (setCmd w (popAccess rest s))
  have hstep := (step_commandWrite hp).trans ht
  exact ⟨t, hstep, (cmdHoldsTheLastWordWritten s t w rest hp hstep).1⟩

/-- Settles O53: the write is `writeReg` at the bus and, but for CMD, in the step; a write to CMD is followed by a
command, which keeps CMD. -/
theorem writesReachOnlyWritableBits : Obligations.WritesReachOnlyWritableBits := by
  intro s g w rest hs hg
  refine ⟨fun hro => ?_, fun hwrite hilen hibuf => ⟨?_, ?_⟩, fun hro hp => ?_, fun hwrite hilen hibuf hp => ?_⟩
  · rw [busWrite_regAddr w hs hg, writeReg_readOnly w s hro]
  · rw [busWrite_regAddr w hs hg, busRead_writeReg_same w hs hg hwrite hilen hibuf]
  · rw [busRead_regAddr hs hg, readReg_and_writable s hwrite hilen hibuf]
  · have hne : g ≠ .cmd := by
      rintro rfl
      cases hro
    rw [step_write_reg hs hg hne hp, writeReg_readOnly w _ hro]
    rfl
  · by_cases hcmd : g = .cmd
    · subst hcmd
      obtain ⟨t, ht, hread⟩ := step_commandWrite_cmd hp
      exact ⟨t, ht, hread.trans BitVec.and_allOnes.symm⟩
    · exact ⟨_, step_write_reg hs hg hcmd hp,
        busRead_writeReg_same (s := popAccess rest s) w hs hg hwrite hilen hibuf⟩

theorem writeReg_ilen (w : Word) (s : State) :
    writeReg w s .ilen = if w.toNat % 4096 ≤ capacity s then { s with ilen := w.toNat % 4096 } else s := by
  have hlow : (w.extractLsb' 0 12).toNat = w.toNat % 4096 := by
    rw [BitVec.extractLsb'_toNat, Nat.shiftRight_zero]
  rw [writeReg, hlow]

/-- Settles O54: the step is the write of ILEN; MAXBITS, and so ILEN, is below 4096. -/
theorem ilenWriteIsBounded : Obligations.IlenWriteIsBounded := by
  intro s w rest hs hp
  obtain ⟨-, -, -, hilen, -⟩ := id hs
  have hstep := step_write_reg (g := .ilen) hs trivial (by decide) hp
  rw [writeReg_ilen, capacity_popAccess] at hstep
  refine ⟨fun hfits => ?_, fun hbig => ?_, rfl, ?_⟩
  · rw [hstep, if_pos hfits]
    rfl
  · rw [hstep, if_neg (Nat.not_le.mpr hbig)]
    rfl
  · have hread : (busRead s 0x014).toNat = s.ilen := ofNat_toNat_of_le_capacity hs hilen
    have hcap := capacity_lt hs
    omega

/-! ## The buffer windows -/

theorem busRead_ibuf {s : State} {k : Nat} (hs : s.Wf) (hk : k < windowWords s) :
    busRead s (0x100 + 4 * k) = windowWord s.ibuf k :=
  busRead_regAddr (g := .ibuf k) hs hk

/-- Past NWORDS no register has an address of the two windows (20_memory.md R62). -/
theorem busRead_past_window {s : State} {k : Nat} (hs : s.Wf) (hpast : windowWords s ≤ k) (hk : k < 64) :
    busRead s (0x100 + 4 * k) = 0 ∧ busRead s (0x200 + 4 * k) = 0 := by
  have hn := windowWords_le hs
  constructor <;> refine busRead_unmapped (by omega) fun g hg => ?_ <;>
    cases g <;> simp only [regAddr, Reg.mapped] at hg ⊢ <;> omega

/-- Settles O55: a read is `windowWord`, a write `setWindowWord`, and past NWORDS nothing is mapped. -/
theorem bufferWindowsPackPositions : Obligations.BufferWindowsPackPositions := by
  intro s k hs
  obtain ⟨-, hibuf, -⟩ := id hs
  refine ⟨fun hk j hj => ?_, fun hk w rest hp => ?_, busRead_past_window hs⟩
  · rw [busRead_ibuf hs hk, busRead_obuf hs hk]
    exact ⟨windowWord_getLsbD hj, windowWord_getLsbD hj⟩
  · refine ⟨_, step_write_reg (g := .ibuf k) hs hk Reg.noConfusion hp, rfl, fun j hj hin => ?_, fun p hp => ?_, ?_⟩
    · exact setWindowWord_getElem?_inside w hj (hibuf ▸ hin)
    · exact setWindowWord_getElem?_outside w hp
    · exact (setWindowWord_length _ _ _).trans hibuf

/-- A buffer's position is a bit of its window word (20_memory.md R62). -/
theorem getElem?_eq_windowWord_getLsbD {buf : BitString} {k j : Nat} (hj : j < 32) (hl : 32 * k + j < buf.length) :
    buf[32 * k + j]? = some ((windowWord buf k).getLsbD (31 - j)) := by
  rw [windowWord_getLsbD hj, List.getD_eq_getElem?_getD, List.getElem?_eq_getElem hl, Option.getD_some]

/-- The MAC string across its three registers (10_state.md R37). -/
theorem macString_getElem?_eq_busRead (s : State) {j : Nat} (hj : j < 88) :
    (macString s)[j]? = some ((busRead s (0x038 + 4 * (j / 32))).getLsbD (31 - j % 32)) := by
  have hmod : j % 32 < 32 := Nat.mod_lt _ (by decide)
  rw [macString_getElem? hj]
  obtain hword | hword | hword : j / 32 = 0 ∨ j / 32 = 1 ∨ j / 32 = 2 := by omega
  · rw [hword, show 87 - j = 87 - j % 32 by omega]
    exact congrArg some (readReg_mac0_getLsbD s hmod).symm
  · rw [hword, show 87 - j = 55 - j % 32 by omega]
    exact congrArg some (readReg_mac1_getLsbD s hmod).symm
  · rw [hword, show 87 - j = 23 - j % 32 by omega]
    exact congrArg some (readReg_mac2_getLsbD s (by omega)).symm

theorem lt_windowWords {s : State} {k : Nat} (h : 32 * k < capacity s) : k < windowWords s := by
  change k < (capacity s + 31) / 32
  omega

/-- Settles O56: byte n stands in word n/4 at positions 8(n mod 4) to 8(n mod 4)+7. -/
theorem bytesOfAStringAreBigEndian : Obligations.BytesOfAStringAreBigEndian := by
  refine fun s hs => ⟨fun n j hj hn => ?_, fun j => macString_getElem?_eq_busRead s⟩
  obtain ⟨-, -, hobuf, -⟩ := id hs
  have hpos : 8 * n + j = 32 * (n / 4) + (8 * (n % 4) + j) := by omega
  rw [busRead_obuf hs (lt_windowWords (by omega)), hpos, getElem?_eq_windowWord_getLsbD (by omega) (by omega),
    Nat.sub_sub]

/-! ## The words a write does not address -/

/-- A window word holds the buffer's positions of that word and no others. -/
theorem windowWord_congr {buf buf' : BitString} {k : Nat} (h : ∀ j, j < 32 → buf[32 * k + j]? = buf'[32 * k + j]?) :
    windowWord buf k = windowWord buf' k := by
  refine BitVec.eq_of_getLsbD_eq fun i hi => ?_
  have hj : 31 - i < 32 := by omega
  have hbit (b : BitString) := windowWord_getLsbD (buf := b) (k := k) hj
  rw [show 31 - (31 - i) = i by omega] at hbit
  rw [hbit, hbit, List.getD_eq_getElem?_getD, List.getD_eq_getElem?_getD, h _ hj]

theorem windowWord_setWindowWord_other {buf : BitString} {k k' : Nat} (w : Word) (h : k' ≠ k) :
    windowWord (setWindowWord buf k w) k' = windowWord buf k' :=
  windowWord_congr fun j hj => setWindowWord_getElem?_outside w (by omega)

/-- The parts of MAC below the part that MAC0 writes are those of before. -/
theorem readReg_writeReg_mac0 (w : Word) (s : State) :
    readReg (writeReg w s .mac0) .mac1 = readReg s .mac1 ∧ readReg (writeReg w s .mac0) .mac2 = readReg s .mac2 := by
  constructor <;> simp only [readReg, writeReg] <;>
    rw [BitVec.extractLsb'_append_eq_of_add_le (by decide), extractLsb'_extractLsb' _ (by decide)]

/-- The parts of MAC above and below the part that MAC1 writes are those of before. -/
theorem readReg_writeReg_mac1 (w : Word) (s : State) :
    readReg (writeReg w s .mac1) .mac0 = readReg s .mac0 ∧ readReg (writeReg w s .mac1) .mac2 = readReg s .mac2 := by
  constructor <;> simp only [readReg, writeReg]
  · rw [BitVec.extractLsb'_append_eq_of_le (by decide), BitVec.extractLsb'_append_eq_left]
  · rw [BitVec.extractLsb'_append_eq_of_add_le (by decide), extractLsb'_extractLsb' _ (by decide)]

/-- The parts of MAC above the part that MAC2 writes are those of before. -/
theorem readReg_writeReg_mac2 (w : Word) (s : State) :
    readReg (writeReg w s .mac2) .mac0 = readReg s .mac0 ∧ readReg (writeReg w s .mac2) .mac1 = readReg s .mac1 := by
  constructor <;> simp only [readReg, writeReg] <;>
    rw [BitVec.extractLsb'_append_eq_of_le (by decide), extractLsb'_extractLsb' _ (by decide)]

/-- A register write shows in no other register: each has a field of its own, but for the three MAC registers, which
divide one, and the words of IBUF. -/
theorem readReg_writeReg_other {g g' : Reg} (w : Word) (s : State) (h : g' ≠ g) :
    readReg (writeReg w s g) g' = readReg s g' := by
  cases g with
  | status | r | olen | param | obuf => rfl
  | cfg => cases g' with | cfg => exact absurd rfl h | _ => rfl
  | cmd => cases g' with | cmd => exact absurd rfl h | _ => rfl
  | a => cases g' with | a => exact absurd rfl h | _ => rfl
  | hPre => cases g' with | hPre => exact absurd rfl h | _ => rfl
  | hSfd => cases g' with | hSfd => exact absurd rfl h | _ => rfl
  | hJrb => cases g' with | hJrb => exact absurd rfl h | _ => rfl
  | hPhr => cases g' with | hPhr => exact absurd rfl h | _ => rfl
  | hRsv => cases g' with | hRsv => exact absurd rfl h | _ => rfl
  | plen => cases g' with | plen => exact absurd rfl h | _ => rfl
  | fcs => cases g' with | fcs => exact absurd rfl h | _ => rfl
  | ilen =>
    rw [writeReg_ilen]
    split_ifs
    · cases g' with | ilen => exact absurd rfl h | _ => rfl
    · rfl
  | mac0 =>
    cases g' with
    | mac0 => exact absurd rfl h
    | mac1 => exact (readReg_writeReg_mac0 w s).1
    | mac2 => exact (readReg_writeReg_mac0 w s).2
    | _ => rfl
  | mac1 =>
    cases g' with
    | mac1 => exact absurd rfl h
    | mac0 => exact (readReg_writeReg_mac1 w s).1
    | mac2 => exact (readReg_writeReg_mac1 w s).2
    | _ => rfl
  | mac2 =>
    cases g' with
    | mac2 => exact absurd rfl h
    | mac0 => exact (readReg_writeReg_mac2 w s).1
    | mac1 => exact (readReg_writeReg_mac2 w s).2
    | _ => rfl
  | ibuf k =>
    cases g' with
    | ibuf k' => exact windowWord_setWindowWord_other w fun hk => h (congrArg Reg.ibuf hk)
    | _ => rfl

/-- A bus write shows at no other address: two addresses are two registers, or one of them none. -/
theorem busRead_busWrite_other {s : State} {addr b : Nat} (w : Word) (ha : addr % 4 = 0) (hb : b % 4 = 0)
    (hne : b ≠ addr) : busRead (busWrite w addr s) b = busRead s b := by
  obtain hkeep | ⟨g, -, haddr, hwrite⟩ := busWrite_cases (s := s) w ha
  · rw [hkeep]
  have hwindow : windowWords (busWrite w addr s) = windowWords s :=
    congrArg Config.nWords (busWrite_maxPayload w addr s)
  rw [busRead, busRead, hwindow, hwrite]
  cases hreg : regAt (windowWords s) b with
  | none => rfl
  | some g' =>
    obtain ⟨-, hb'⟩ := regAt_sound hb hreg
    refine readReg_writeReg_other w s ?_
    rintro rfl
    exact hne (hb'.trans haddr.symm)

/-- Settles O8: the step is the bus write alone, which shows in no other word and in no field that is no register. -/
theorem hostWriteChangesOnlyItsWord : Obligations.HostWriteChangesOnlyItsWord := by
  intro s addr w rest _ hlt ha hcmd hp
  refine ⟨_, step_write hlt ha hcmd hp, fun b _ hb hne => ?_, busWrite_maxPayload w addr _,
    busWrite_unchanged addr (writeReg_draws w _), busWrite_pending w addr _,
    busWrite_unchanged addr (writeReg_reads w _)⟩
  rw [busRead_busWrite_other w ha hb hne, busRead_popAccess]

end Sys2Proof.Machine
